-- ==== Sys2Proof/Word.lean ====
section
/-! DEFINITION. The word types of IV-RegisterMath (spec 00 R10, R11): bit 0 is the least significant bit. -/

namespace Sys2Proof

/-- A byte of a transmitted frame (R11). -/
abbrev Byte := BitVec 8

/-- A tuning word or a PLL register word (R10). -/
abbrev Word32 := BitVec 32

/-- A frequency or a step size in Hz: an unsigned 64-bit value (R10, D18), and a command's `arg` field (R64). -/
abbrev Hz := BitVec 64

/-- A command word `CMD[71:0]` (30 R60). -/
abbrev Cmd := BitVec 72

/-- A response word `RSP[135:0]` (30 R68). -/
abbrev Rsp := BitVec 136

end Sys2Proof
end

