-- ==== Sys2Proof/Machine/Rounding.lean ====
section
/-! DEFINITION. Exact rounding and the byte fields of a word (spec 00 R11 to R13). -/

namespace Sys2Proof.Machine

/-- `round_hu(n / d)`: the nearest integer, ties upward (R13), in the integer form R90 and R107 give. The tie rule is the
spec's D4 (log 11). -/
def roundHu (n d : Nat) : Nat := (2 * n + d) / (2 * d)

/-- Byte `k` of a 32-bit word, `v[8k+7:8k]` (R11). -/
def byteOf (v : Word32) (k : Nat) : Byte := v.extractLsb' (8 * k) 8

end Sys2Proof.Machine
end

