-- ==== Sys2Proof/Config.lean ====
section
/-! DEFINITION. The implementation parameters (spec 00 R6 to R9, 10 R26, R31).

The parameters the spec calls fixed are constants here. The others are the fields of `Cfg`, which `State` holds (10_state.md
lists `Cfg` as part of the block's whole state), so that every meaning is a function of them and every statement ranges over
all of them. `Config.scenario` is the one instance that `State.reset` starts with; no statement rests on its numbers.
DESIGN CHOICE (log 3, 33). -/

namespace Sys2Proof

namespace Config

/-- `DDS_FMAX` (R6). -/
def ddsFmax : Nat := 40000000
/-- `DDS_CTRL` (R6): the control byte of every DDS frame. -/
def ddsCtrl : Byte := 0x00#8
/-- `PLL_FMIN` (R7). -/
def pllFmin : Nat := 35000000
/-- `PLL_FMAX` (R7). -/
def pllFmax : Nat := 4400000000
/-- `PLL_MOD` (R7). -/
def pllMod : Nat := 4095
/-- `PLL_THRESH[0..6]` (R7), index 0 first. -/
def pllThresh : List Nat :=
  [2200000000, 1100000000, 550000000, 275000000, 137500000, 68750000, 0]
/-- `PLL_PRESC_THRESH` (R7). -/
def pllPrescThresh : Nat := 3600000000
/-- `PLL_STEPS` (R7). -/
def pllSteps : List Nat := [10, 100, 1000, 10000, 100000, 1000000, 10000000]
/-- `PLL_PMAX` (R7). -/
def pllPmax : Nat := 3
/-- Which of the two integer ranges of 32 bits the JSON text of a response calls safe (30 R78): a FREE VALUE, IV says only
"32-bit-safe integer representation". No step reads it, the text is outside the block. DESIGN CHOICE (log 34). -/
opaque textSafeIsSigned : Bool

end Config

/-- The configuration record `Cfg` (00 R6 to R9): what one built instance of the block fixes and the spec leaves as a
parameter. -/
structure Cfg where
  /-- `DDS_REF_NUM` (R6, OPEN) -/
  ddsRefNum : Nat
  /-- `DDS_REF_DEN` (R6, OPEN) -/
  ddsRefDen : Nat
  /-- `DDS_SCALE` (R6): 2^32 is the normative value -/
  ddsScale : Nat
  /-- `PLL_REF_HZ` (R7, OPEN) -/
  pllRefHz : Nat
  /-- `PLL_PRESC_BIT` (R8): bit of word 1 -/
  pllPrescBit : Nat
  /-- `PLL_MOD_LSB` (R8): low bit of the 12-bit MOD field of word 1 -/
  pllModLsb : Nat
  /-- `PLL_RFDIV_LSB` (R8): low bit of the 3-bit RF-divider field of word 4 -/
  pllRfdivLsb : Nat
  /-- `PLL_RFEN_BIT` (R8): RF-enable bit of word 4 -/
  pllRfenBit : Nat
  /-- `PLL_PWR_LSB` (R8): low bit of the 2-bit output-power field of word 4 -/
  pllPwrLsb : Nat
  /-- `PLL_R1_FIXED` (R8, OPEN) -/
  pllR1Fixed : Word32
  /-- `PLL_R2_FIXED` (R8, OPEN) -/
  pllR2Fixed : Word32
  /-- `PLL_R3_FIXED` (R8, OPEN) -/
  pllR3Fixed : Word32
  /-- `PLL_R4_FIXED` (R8, OPEN) -/
  pllR4Fixed : Word32
  /-- `PLL_R5_FIXED` (R8, OPEN) -/
  pllR5Fixed : Word32
  /-- `DDS_USABLE` (R9, OPEN) -/
  ddsUsable : Bool
  /-- `PLL_USABLE` (R9, OPEN) -/
  pllUsable : Bool
  /-- `DDS_RESET_FREQ` (R9, R31, OPEN) -/
  ddsResetFreq : Hz
  /-- `DDS_RESET_STEP` (R9, R31, OPEN) -/
  ddsResetStep : Hz
  /-- `DDS_RESET_EN` (R9, R31, OPEN) -/
  ddsResetEn : Bool
  /-- `PLL_RESET_FREQ` (R9, R31, OPEN) -/
  pllResetFreq : Hz
  /-- `PLL_RESET_STEP` (R9, R31, OPEN) -/
  pllResetStep : Hz
  /-- `PLL_RESET_POWER` (R9, R31, OPEN) -/
  pllResetPower : BitVec 2
  /-- `PLL_RESET_RFON` (R9, R31, OPEN) -/
  pllResetRfon : Bool
  deriving DecidableEq, Repr

/-- The instance `State.reset` starts with: the reference clocks of IV's scenarios (95 EXD, EXP0), the spec's default field
positions, fixed constants 0 (EXP0), both straps 1, and the reset values of the spec's program P3.
DESIGN CHOICE (log 3, 4, 5, 15); the field positions are PRESUMED, the ADF4351 family's (log 14). -/
def Config.scenario : Cfg where
  ddsRefNum := 125000000
  ddsRefDen := 1
  ddsScale := 4294967296
  pllRefHz := 8000000
  pllPrescBit := 27
  pllModLsb := 3
  pllRfdivLsb := 20
  pllRfenBit := 5
  pllPwrLsb := 3
  pllR1Fixed := 0#32
  pllR2Fixed := 0#32
  pllR3Fixed := 0#32
  pllR4Fixed := 0#32
  pllR5Fixed := 0#32
  ddsUsable := true
  pllUsable := true
  ddsResetFreq := 0#64
  ddsResetStep := 1000#64
  ddsResetEn := false
  pllResetFreq := 2400000000#64
  pllResetStep := 1000000#64
  pllResetPower := 3#2
  pllResetRfon := false

end Sys2Proof
end

