-- ==== Sys2Proof/Syntax.lean ====
section
/-! DEFINITION. The sixteen commands (spec 30 R79, R80; opcode_table.json) and the two units they are for (R61).

A constructor holds the operand bits its rule reads and nothing else: the bits the decoder ignores (the reserved bit 64;
`argp` and `arg` of a command without a parameter; `arg[63:1]` of UP and DOWN) are no part of the instruction. -/

namespace Sys2Proof

/-- The function units of the block (30 R61): `unit` 0 is the DDS unit, `unit` 1 the PLL unit. -/
inductive UnitSel where
  | dds
  | pll
  deriving DecidableEq, Repr

/-- The value of the `unit` field that names the unit (30 R61). -/
def UnitSel.code : UnitSel → BitVec 2
  | .dds => 0#2
  | .pll => 1#2

/-- The commands: one constructor per row of opcode_table.json. -/
inductive Instr where
  /-- DDS.STATUS (44 R181) -/
  | ddsStatus
  /-- DDS.SETF: `arg` is the frequency in Hz (42 R131) -/
  | ddsSetf (arg : Hz)
  /-- DDS.UP: `arg[0]` = 1 (42 R132) -/
  | ddsUp
  /-- DDS.DOWN: `arg[0]` = 0 (42 R133) -/
  | ddsDown
  /-- DDS.SETSTEP: `arg` is the step in Hz (42 R134) -/
  | ddsSetstep (arg : Hz)
  /-- DDS.EN (42 R135) -/
  | ddsEn
  /-- DDS.DIS (42 R136) -/
  | ddsDis
  /-- PLL.STATUS (44 R182) -/
  | pllStatus
  /-- PLL.SETF: `arg` is the frequency in Hz (43 R151) -/
  | pllSetf (arg : Hz)
  /-- PLL.UP: `arg[0]` = 1 (43 R152) -/
  | pllUp
  /-- PLL.DOWN: `arg[0]` = 0 (43 R153) -/
  | pllDown
  /-- PLL.SETSTEP: `arg` is the step in Hz (43 R155) -/
  | pllSetstep (arg : Hz)
  /-- PLL.EN (43 R156) -/
  | pllEn
  /-- PLL.DIS (43 R157) -/
  | pllDis
  /-- PLL.SETPWR: `arg` is the power index, all 64 bits of it (43 R154, 30 R64) -/
  | pllSetpwr (arg : Hz)
  /-- PLL.TOGGLE (43 R158) -/
  | pllToggle
  deriving DecidableEq, Repr

/-- The unit a command is for (30 R61, R62). -/
def Instr.unit : Instr → UnitSel
  | .ddsStatus => .dds
  | .ddsSetf _ => .dds
  | .ddsUp => .dds
  | .ddsDown => .dds
  | .ddsSetstep _ => .dds
  | .ddsEn => .dds
  | .ddsDis => .dds
  | .pllStatus => .pll
  | .pllSetf _ => .pll
  | .pllUp => .pll
  | .pllDown => .pll
  | .pllSetstep _ => .pll
  | .pllEn => .pll
  | .pllDis => .pll
  | .pllSetpwr _ => .pll
  | .pllToggle => .pll

end Sys2Proof
end

