-- ==== Sys2Proof/Decode.lean ====
section
/-! DEFINITION. Decoding and encoding of the command word (spec 30 R60 to R66, R80). Decoding is total on 72-bit words and
rejects by name. -/

namespace Sys2Proof

/-- Why a word is no command of the opcode table. -/
inductive Reject where
  /-- `unit` is 2 (ClockGen-VFO) or 3: no meaning in this block (R61) -/
  | noSuchUnit (unit : BitVec 2)
  /-- the `op` names no sub-action of the unit (R66, 44 R183) -/
  | unknownOp (u : UnitSel)
  /-- the `op` needs a parameter and `argp` is 0 (R63, R66, 44 R184) -/
  | missingParam (u : UnitSel)
  deriving DecidableEq, Repr

/-- `CMD[71:70]` (R60). -/
def cmdUnit (w : Cmd) : BitVec 2 := w.extractLsb' 70 2
/-- `CMD[69:66]` (R60). -/
def cmdOp (w : Cmd) : BitVec 4 := w.extractLsb' 66 4
/-- `CMD[65]` (R60, R63). -/
def cmdArgp (w : Cmd) : Bool := w.getLsbD 65
/-- `CMD[63:0]`, taken whole as an unsigned integer (R60, R64). -/
def cmdArg (w : Cmd) : Hz := w.extractLsb' 0 64

/-- The DDS column of R62, with R63's presence bit. -/
def decodeDds (op : BitVec 4) (argp : Bool) (arg : Hz) : Except Reject Instr :=
  match op.toNat, argp with
  | 0, _ => .ok .ddsStatus
  | 1, true => .ok (.ddsSetf arg)
  | 2, true => .ok (if arg.getLsbD 0 then .ddsUp else .ddsDown)
  | 3, true => .ok (.ddsSetstep arg)
  | 4, _ => .ok .ddsEn
  | 5, _ => .ok .ddsDis
  | 1, false => .error (.missingParam .dds)
  | 2, false => .error (.missingParam .dds)
  | 3, false => .error (.missingParam .dds)
  | _, _ => .error (.unknownOp .dds)

/-- The PLL column of R62, with R63's presence bit. -/
def decodePll (op : BitVec 4) (argp : Bool) (arg : Hz) : Except Reject Instr :=
  match op.toNat, argp with
  | 0, _ => .ok .pllStatus
  | 1, true => .ok (.pllSetf arg)
  | 2, true => .ok (if arg.getLsbD 0 then .pllUp else .pllDown)
  | 3, true => .ok (.pllSetstep arg)
  | 4, _ => .ok .pllEn
  | 5, _ => .ok .pllDis
  | 6, true => .ok (.pllSetpwr arg)
  | 7, _ => .ok .pllToggle
  | 1, false => .error (.missingParam .pll)
  | 2, false => .error (.missingParam .pll)
  | 3, false => .error (.missingParam .pll)
  | 6, false => .error (.missingParam .pll)
  | _, _ => .error (.unknownOp .pll)

/-- The decoding algorithm (R65): the unit first, then the row. The reserved bit 64 is not looked at. -/
def decode (w : Cmd) : Except Reject Instr :=
  match (cmdUnit w).toNat with
  | 0 => decodeDds (cmdOp w) (cmdArgp w) (cmdArg w)
  | 1 => decodePll (cmdOp w) (cmdArgp w) (cmdArg w)
  | _ => .error (.noSuchUnit (cmdUnit w))

/-- A command word from its fields (R60), the reserved bit 0. -/
def packCmd (u : UnitSel) (op : BitVec 4) (argp : Bool) (arg : Hz) : Cmd :=
  u.code ++ op ++ BitVec.ofBool argp ++ 0#1 ++ arg

/-- The word a sender writes for a command (R60 to R64, R80). Bits the decoder ignores are written 0.
DESIGN CHOICE for the ignored bits other than the reserved one (log 26). -/
def encode : Instr → Cmd
  | .ddsStatus => packCmd .dds 0#4 false 0#64
  | .ddsSetf arg => packCmd .dds 1#4 true arg
  | .ddsUp => packCmd .dds 2#4 true 1#64
  | .ddsDown => packCmd .dds 2#4 true 0#64
  | .ddsSetstep arg => packCmd .dds 3#4 true arg
  | .ddsEn => packCmd .dds 4#4 false 0#64
  | .ddsDis => packCmd .dds 5#4 false 0#64
  | .pllStatus => packCmd .pll 0#4 false 0#64
  | .pllSetf arg => packCmd .pll 1#4 true arg
  | .pllUp => packCmd .pll 2#4 true 1#64
  | .pllDown => packCmd .pll 2#4 true 0#64
  | .pllSetstep arg => packCmd .pll 3#4 true arg
  | .pllEn => packCmd .pll 4#4 false 0#64
  | .pllDis => packCmd .pll 5#4 false 0#64
  | .pllSetpwr arg => packCmd .pll 6#4 true arg
  | .pllToggle => packCmd .pll 7#4 false 0#64

/-- One row of the opcode table: a word belongs to it when its masked bits are the row's. -/
structure OpcodeRow where
  mask : Cmd
  pattern : Cmd
  deriving DecidableEq, Repr

/-- The row of spec/opcode_table.json for each command, copied from the table (R80). -/
def opcodeRow : Instr → OpcodeRow
  | .ddsStatus => ⟨0xFC0000000000000000#72, 0x000000000000000000#72⟩
  | .ddsSetf _ => ⟨0xFE0000000000000000#72, 0x060000000000000000#72⟩
  | .ddsUp => ⟨0xFE0000000000000001#72, 0x0A0000000000000001#72⟩
  | .ddsDown => ⟨0xFE0000000000000001#72, 0x0A0000000000000000#72⟩
  | .ddsSetstep _ => ⟨0xFE0000000000000000#72, 0x0E0000000000000000#72⟩
  | .ddsEn => ⟨0xFC0000000000000000#72, 0x100000000000000000#72⟩
  | .ddsDis => ⟨0xFC0000000000000000#72, 0x140000000000000000#72⟩
  | .pllStatus => ⟨0xFC0000000000000000#72, 0x400000000000000000#72⟩
  | .pllSetf _ => ⟨0xFE0000000000000000#72, 0x460000000000000000#72⟩
  | .pllUp => ⟨0xFE0000000000000001#72, 0x4A0000000000000001#72⟩
  | .pllDown => ⟨0xFE0000000000000001#72, 0x4A0000000000000000#72⟩
  | .pllSetstep _ => ⟨0xFE0000000000000000#72, 0x4E0000000000000000#72⟩
  | .pllEn => ⟨0xFC0000000000000000#72, 0x500000000000000000#72⟩
  | .pllDis => ⟨0xFC0000000000000000#72, 0x540000000000000000#72⟩
  | .pllSetpwr _ => ⟨0xFE0000000000000000#72, 0x5A0000000000000000#72⟩
  | .pllToggle => ⟨0xFC0000000000000000#72, 0x5C0000000000000000#72⟩

/-- A word satisfies a row: `CMD & mask == match` (R65). -/
abbrev OpcodeRow.Matches (r : OpcodeRow) (w : Cmd) : Prop := w &&& r.mask = r.pattern

/-- The operand a command carries, if it carries one (30 R64). -/
def Instr.operand : Instr → Option Hz
  | .ddsSetf a => some a
  | .ddsSetstep a => some a
  | .pllSetf a => some a
  | .pllSetstep a => some a
  | .pllSetpwr a => some a
  | .ddsStatus => none
  | .ddsUp => none
  | .ddsDown => none
  | .ddsEn => none
  | .ddsDis => none
  | .pllStatus => none
  | .pllUp => none
  | .pllDown => none
  | .pllEn => none
  | .pllDis => none
  | .pllToggle => none

/-- The bits a command's meaning depends on: its row's mask, and the whole `arg` field where that is the operand (R64). -/
def Instr.significantBits : Instr → Cmd
  | .ddsSetf a => (opcodeRow (.ddsSetf a)).mask ||| 0x00FFFFFFFFFFFFFFFF#72
  | .ddsSetstep a => (opcodeRow (.ddsSetstep a)).mask ||| 0x00FFFFFFFFFFFFFFFF#72
  | .pllSetf a => (opcodeRow (.pllSetf a)).mask ||| 0x00FFFFFFFFFFFFFFFF#72
  | .pllSetstep a => (opcodeRow (.pllSetstep a)).mask ||| 0x00FFFFFFFFFFFFFFFF#72
  | .pllSetpwr a => (opcodeRow (.pllSetpwr a)).mask ||| 0x00FFFFFFFFFFFFFFFF#72
  | .ddsStatus => (opcodeRow .ddsStatus).mask
  | .ddsUp => (opcodeRow .ddsUp).mask
  | .ddsDown => (opcodeRow .ddsDown).mask
  | .ddsEn => (opcodeRow .ddsEn).mask
  | .ddsDis => (opcodeRow .ddsDis).mask
  | .pllStatus => (opcodeRow .pllStatus).mask
  | .pllUp => (opcodeRow .pllUp).mask
  | .pllDown => (opcodeRow .pllDown).mask
  | .pllEn => (opcodeRow .pllEn).mask
  | .pllDis => (opcodeRow .pllDis).mask
  | .pllToggle => (opcodeRow .pllToggle).mask

/-- The 72-bit command word whose low `nbits` bits are those of `w` and whose other bits are 0. -/
def tableWord (nbits w : Nat) : Cmd := BitVec.ofNat 72 (w % 2 ^ nbits)

/-- The instruction the decoder reads from an opcode-table word (the host's question). -/
def decodeTableWord (nbits w : Nat) : Option Instr :=
  match decode (tableWord nbits w) with
  | .ok i => some i
  | .error _ => none

end Sys2Proof
end

