-- ==== Sys2Proof/WellFormed.lean ====
section
/-! DEFINITION. Well-formedness (spec 00 R6 to R8, 10 R31).

A command needs no check: each constructor of `Instr` holds exactly the operand bits its row of the opcode table has, and the
row admits every value of them (30 R64, R80). What has checks is the configuration: "the model checks it; a `Cfg` that fails
it is refused" (R8). -/

namespace Sys2Proof

/-- The bits of a 32-bit word that a field of the given low bit and width takes. -/
def fieldMask (lsb width : Nat) : Word32 := BitVec.ofNat 32 (2 ^ width - 1) <<< lsb

/-- The reference clocks and the scale are positive (R6, R7). -/
abbrev Cfg.RefsPositive (c : Cfg) : Prop :=
  0 < c.ddsRefNum ∧ 0 < c.ddsRefDen ∧ 0 < c.ddsScale ∧ 0 < c.pllRefHz

/-- "every field position is at least 3 and every field lies within bits [31:3]" (R8). -/
abbrev Cfg.FieldsInWord (c : Cfg) : Prop :=
  (3 ≤ c.pllPrescBit ∧ c.pllPrescBit ≤ 31) ∧ (3 ≤ c.pllModLsb ∧ c.pllModLsb + 11 ≤ 31) ∧
  (3 ≤ c.pllRfdivLsb ∧ c.pllRfdivLsb + 2 ≤ 31) ∧ (3 ≤ c.pllRfenBit ∧ c.pllRfenBit ≤ 31) ∧
  (3 ≤ c.pllPwrLsb ∧ c.pllPwrLsb + 1 ≤ 31)

/-- "within one word no two variable fields overlap" (R8). -/
abbrev Cfg.FieldsDisjoint (c : Cfg) : Prop :=
  (c.pllPrescBit < c.pllModLsb ∨ c.pllModLsb + 11 < c.pllPrescBit) ∧
  (c.pllRfenBit < c.pllRfdivLsb ∨ c.pllRfdivLsb + 2 < c.pllRfenBit) ∧
  (c.pllPwrLsb + 1 < c.pllRfdivLsb ∨ c.pllRfdivLsb + 2 < c.pllPwrLsb) ∧
  (c.pllRfenBit < c.pllPwrLsb ∨ c.pllPwrLsb + 1 < c.pllRfenBit)

/-- "every `PLL_Rk_FIXED` has bits [2:0] equal to 0" (R8). -/
abbrev Cfg.AddressBitsClear (c : Cfg) : Prop :=
  c.pllR1Fixed &&& 7#32 = 0#32 ∧ c.pllR2Fixed &&& 7#32 = 0#32 ∧ c.pllR3Fixed &&& 7#32 = 0#32 ∧
  c.pllR4Fixed &&& 7#32 = 0#32 ∧ c.pllR5Fixed &&& 7#32 = 0#32

/-- "`PLL_R1_FIXED` is 0 at bit `PLL_PRESC_BIT` and at the 12 bits of the MOD field" (R8). -/
abbrev Cfg.R1FieldsClear (c : Cfg) : Prop :=
  c.pllR1Fixed &&& fieldMask c.pllPrescBit 1 = 0#32 ∧ c.pllR1Fixed &&& fieldMask c.pllModLsb 12 = 0#32

/-- "`PLL_R4_FIXED` is 0 at the 3 bits of the RF-divider field, at bit `PLL_RFEN_BIT` and at the 2 bits of the power field"
(R8). -/
abbrev Cfg.R4FieldsClear (c : Cfg) : Prop :=
  c.pllR4Fixed &&& fieldMask c.pllRfdivLsb 3 = 0#32 ∧ c.pllR4Fixed &&& fieldMask c.pllRfenBit 1 = 0#32 ∧
  c.pllR4Fixed &&& fieldMask c.pllPwrLsb 2 = 0#32

/-- The constraints on the reset values (10 R31); `DDS_RESET_STEP`, the two enables and the power index admit every value of
their width. -/
abbrev Cfg.ResetInRange (c : Cfg) : Prop :=
  c.ddsResetFreq.toNat ≤ Config.ddsFmax ∧
  (Config.pllFmin ≤ c.pllResetFreq.toNat ∧ c.pllResetFreq.toNat ≤ Config.pllFmax) ∧
  c.pllResetStep.toNat ∈ Config.pllSteps

/-- A configuration the model accepts. -/
abbrev Cfg.WellFormed (c : Cfg) : Prop :=
  c.RefsPositive ∧ c.FieldsInWord ∧ c.FieldsDisjoint ∧ c.AddressBitsClear ∧ c.R1FieldsClear ∧ c.R4FieldsClear ∧
  c.ResetInRange

end Sys2Proof
end

