-- ==== Sys2Proof/Machine/State.lean ====
section
/-! DEFINITION. The architectural state (spec 10_state.md), the outcomes, and the state after reset (10 R31, 70 R230, R231). -/

namespace Sys2Proof.Machine

/-- How a command ended (60 R204). -/
inductive OutcomeClass where
  /-- code 0: the command's validity test passed, or it has none -/
  | accepted
  /-- code 1: R201 -/
  | outOfRange
  /-- code 2: 44 R184 -/
  | missingParam
  /-- code 3: 44 R183 -/
  | unknownOp
  /-- code 4: R203 -/
  | unavailable
  /-- code 5: R202, never raised in this block -/
  | unsupported
  deriving DecidableEq, Repr

/-- The `status` of a response (30 R68). -/
inductive RspStatus where
  | ok
  | error
  deriving DecidableEq, Repr

/-- One event of the transmit log (10 R29, 00 R15), its bytes in time order. -/
inductive TxEvent where
  /-- one DDS frame of five bytes (20 R41) -/
  | ddsFrame (b0 b1 b2 b3 b4 : Byte)
  /-- one PLL word event: the word's index, then its four bytes, most significant first (20 R42) -/
  | pllWord (i : Fin 6) (b3 b2 b1 b0 : Byte)
  /-- one settle event (20 R43) -/
  | pllSettle
  deriving DecidableEq, Repr

/-- What a command gave back: its outcome class, which the spec keeps "for a model's use" (60 R204), and its response word
(30 R68). -/
structure Response where
  cls : OutcomeClass
  word : Rsp
  deriving DecidableEq, Repr

/-- The DDS unit's registers (10 R20). -/
structure DdsRegs where
  freq : Hz
  step : Hz
  /-- 1 = Enabled (R25) -/
  en : Bool
  deriving DecidableEq, Repr

/-- The PLL unit's registers (10 R21). -/
structure PllRegs where
  freq : Hz
  step : Hz
  power : BitVec 2
  /-- `PLL.rf_on`: 1 = RF-on (R25) -/
  rfOn : Bool
  deriving DecidableEq, Repr

/-- The block's whole state (10_state.md: seven registers, two straps, the configuration, the transmit log), and the two
lists through which the host is seen: the command words it presents and the responses it gets (log 1, 7). -/
structure State where
  /-- the DDS unit's registers (R20) -/
  dds : DdsRegs
  /-- the PLL unit's registers (R21) -/
  pll : PllRegs
  /-- the strap `DDS_USABLE`, sampled at reset (R27) -/
  ddsUsable : Bool
  /-- the strap `PLL_USABLE`, sampled at reset (R27) -/
  pllUsable : Bool
  /-- the read-only configuration (R26) -/
  cfg : Cfg
  /-- `TXLOG`, oldest event first (R29) -/
  txlog : List TxEvent
  /-- the responses given since reset, oldest first (30 R67); the model's own field, DESIGN CHOICE (log 7) -/
  rsplog : List Response
  /-- the command words the host presents, the next one first (R24); the model's own field, DESIGN CHOICE (log 1) -/
  host : List Cmd
  deriving DecidableEq, Repr

/-- Faults: none. "The block has no traps", and no failure stops it (60 R200, R207; 00 R18), so this type is empty and no
step answers with a fault. Safe (log 28). -/
inductive Fault where
  deriving DecidableEq, Repr

/-- What the model gives no step to. -/
inductive Refusal where
  /-- Raised by `exec`'s arms alone, for an instruction that has no meaning yet. Safe. -/
  | notModelled (mnemonic : String)
  /-- Raised by `step` for a word whose `unit` is 2 or 3: "the model refuses it" (30 R61, 44 R186). Safe (log 8). -/
  | noSuchUnit (unit : BitVec 2)
  /-- Raised by `step` when the configuration is not well-formed: "a `Cfg` that fails it is refused" (00 R8). Safe (log 6). -/
  | illFormedConfig
  deriving DecidableEq, Repr

/-- The state right after reset of a block built with configuration `c` (10 R31, 70 R230, R231): every register from its
reset parameter, the straps sampled, nothing transmitted. -/
def State.ofCfg (c : Cfg) : State where
  dds := { freq := c.ddsResetFreq, step := c.ddsResetStep, en := c.ddsResetEn }
  pll := { freq := c.pllResetFreq, step := c.pllResetStep, power := c.pllResetPower, rfOn := c.pllResetRfon }
  ddsUsable := c.ddsUsable
  pllUsable := c.pllUsable
  cfg := c
  txlog := []
  rsplog := []
  host := []

/-- The state after reset of the instance the model runs (log 3, 4, 5). -/
def State.reset : State := State.ofCfg Config.scenario

end Sys2Proof.Machine
end

