-- ==== Sys2Proof/Machine/RegisterSet.lean ====
section
/-! DEFINITION. The PLL unit's pure functions (spec 41): the register set and its transmit sequence. They read no state
(R100) and are total on every frequency (R117, D7; log 27). -/

namespace Sys2Proof.Machine

/-- `pll_rf_div_sel(f)`: the smallest index `i` with `f ≥ PLL_THRESH[i]` (R101, R102). -/
def pllRfDivSel (f : Nat) : Nat := Config.pllThresh.findIdx (fun t => decide (t ≤ f))

/-- `vco = f * 2^d`, over the integers (R103). -/
def pllVco (f : Nat) : Nat := f * 2 ^ pllRfDivSel f

/-- `pll_prescaler(vco)` (R104). -/
def pllPrescaler (vco : Nat) : Bool := decide (Config.pllPrescThresh ≤ vco)

/-- `INT = floor(vco / PLL_REF_HZ)` (R105). -/
def pllInt (c : Cfg) (vco : Nat) : Nat := vco / c.pllRefHz

/-- `FRAC = round_hu((vco mod PLL_REF_HZ) * PLL_MOD / PLL_REF_HZ)`, neither carried into INT nor clamped (R107, R108, D8;
log 13). -/
def pllFrac (c : Cfg) (vco : Nat) : Nat := roundHu (vco % c.pllRefHz * Config.pllMod) c.pllRefHz

/-- The register set `W[0..5]` (10 R28): a value inside one command, never state. -/
structure PllWords where
  w0 : Word32
  w1 : Word32
  w2 : Word32
  w3 : Word32
  w4 : Word32
  w5 : Word32
  deriving DecidableEq, Repr

/-- `W[i]`. -/
def PllWords.word (ws : PllWords) : Fin 6 → Word32
  | 0 => ws.w0
  | 1 => ws.w1
  | 2 => ws.w2
  | 3 => ws.w3
  | 4 => ws.w4
  | 5 => ws.w5

/-- Word 0: `((INT << 15) | (FRAC << 3) | 0) mod 2^32` (R109; 30 R70). Bits of INT from 2^17 up are lost (D9; log 13). -/
def pllWord0 (int frac : Nat) : Word32 := BitVec.ofNat 32 ((int <<< 15) ||| (frac <<< 3))

/-- Word 1 (R110; 30 R71). -/
def pllWord1 (c : Cfg) (presc : Bool) : Word32 :=
  c.pllR1Fixed ||| ((BitVec.ofBool presc).setWidth 32 <<< c.pllPrescBit) |||
    (BitVec.ofNat 32 Config.pllMod <<< c.pllModLsb) ||| 1#32

/-- Word 2 (R111; 30 R72). -/
def pllWord2 (c : Cfg) : Word32 := c.pllR2Fixed ||| 2#32

/-- Word 3 (R112; 30 R73). -/
def pllWord3 (c : Cfg) : Word32 := c.pllR3Fixed ||| 3#32

/-- Word 4 (R113; 30 R74). -/
def pllWord4 (c : Cfg) (d : Nat) (rfEnabled : Bool) (outPower : BitVec 2) : Word32 :=
  c.pllR4Fixed ||| (BitVec.ofNat 32 d <<< c.pllRfdivLsb) ||| ((BitVec.ofBool rfEnabled).setWidth 32 <<< c.pllRfenBit) |||
    (outPower.setWidth 32 <<< c.pllPwrLsb) ||| 4#32

/-- Word 5 (R114; 30 R75). -/
def pllWord5 (c : Cfg) : Word32 := c.pllR5Fixed ||| 5#32

/-- `pll_encode(f, rf_enabled, out_power)` (R100). -/
def pllEncode (c : Cfg) (f : Hz) (rfEnabled : Bool) (outPower : BitVec 2) : PllWords :=
  let vco := pllVco f.toNat
  { w0 := pllWord0 (pllInt c vco) (pllFrac c vco)
    w1 := pllWord1 c (pllPrescaler vco)
    w2 := pllWord2 c
    w3 := pllWord3 c
    w4 := pllWord4 c (pllRfDivSel f.toNat) rfEnabled outPower
    w5 := pllWord5 c }

/-- One word and its settling delay: the word's bytes most significant first, then one settle event (R116; 20 R42, R43). -/
def pllWordEvents (i : Fin 6) (w : Word32) : List TxEvent :=
  [.pllWord i (byteOf w 3) (byteOf w 2) (byteOf w 1) (byteOf w 0), .pllSettle]

/-- `pll_transmit(W)` as the twelve events it appends: word 5 first, word 0 last (R116; 20 R42, R43). -/
def pllTransmit (ws : PllWords) : List TxEvent :=
  pllWordEvents 5 ws.w5 ++ pllWordEvents 4 ws.w4 ++ pllWordEvents 3 ws.w3 ++
    pllWordEvents 2 ws.w2 ++ pllWordEvents 1 ws.w1 ++ pllWordEvents 0 ws.w0

end Sys2Proof.Machine
end

