-- ==== Sys2Proof/Machine/TuningWord.lean ====
section
/-! DEFINITION. The DDS unit's pure functions (spec 40): the tuning word and its frame. They read no state (R94). -/

namespace Sys2Proof.Machine

/-- The rounded phase increment before the reduction modulo 2^32, `t` of R90:
`round_hu(f * DDS_SCALE * DDS_REF_DEN / DDS_REF_NUM)`, exact. -/
def ddsIncrement (c : Cfg) (f : Nat) : Nat := roundHu (f * c.ddsScale * c.ddsRefDen) c.ddsRefNum

/-- `dds_tuning_word(f)` (R90, R92), total on every `u64` (R91, D7; log 27). -/
def ddsTuningWord (c : Cfg) (f : Hz) : Word32 := BitVec.ofNat 32 (ddsIncrement c f.toNat)

/-- `dds_frame(w)` as one event: least significant byte first, then `DDS_CTRL` (R95; 20 R41; 30 R69). -/
def ddsFrame (w : Word32) : TxEvent := .ddsFrame (byteOf w 0) (byteOf w 1) (byteOf w 2) (byteOf w 3) Config.ddsCtrl

end Sys2Proof.Machine
end

