-- ==== Sys2Proof/Machine/Ops.lean ====
section
/-! DEFINITION. The operations every command goes through: transmitting, responding, failing, and the dispatch around a
command's own rule (spec 00 R15; 30 R67, R68; 40 R96; 43 R150; 44 R180, R185; 60 R203, R204, R207).

The block takes no exceptions and returns from none (60 R207, R208): what stands here in their place is `runCommand`, the one
operation that ends a command, a failing one too, in its response. -/

namespace Sys2Proof.Machine

/-- The outcome class's code (60 R204). -/
def OutcomeClass.code : OutcomeClass → Nat
  | .accepted => 0
  | .outOfRange => 1
  | .missingParam => 2
  | .unknownOp => 3
  | .unavailable => 4
  | .unsupported => 5

/-- The status an outcome class answers with: `ERROR` for `Unavailable` alone (60 R204). -/
def OutcomeClass.status : OutcomeClass → RspStatus
  | .accepted => .ok
  | .outOfRange => .ok
  | .missingParam => .ok
  | .unknownOp => .ok
  | .unavailable => .error
  | .unsupported => .ok

/-- `RSP[133]` (30 R68). -/
def RspStatus.bit : RspStatus → Bool
  | .ok => false
  | .error => true

/-- The response word from its fields: unit, status, en, power, two reserved zeros, freq, step (30 R68). -/
def rspWord (u : UnitSel) (st : RspStatus) (en : Bool) (power : BitVec 2) (freq step : Hz) : Rsp :=
  u.code ++ BitVec.ofBool st.bit ++ BitVec.ofBool en ++ power ++ 0#2 ++ freq ++ step

/-- The snapshot of the addressed unit's registers, and of nothing else (30 R68; 44 R185). -/
def snapshot (u : UnitSel) (st : RspStatus) (s : State) : Rsp :=
  match u with
  | .dds => rspWord .dds st s.dds.en 0#2 s.dds.freq s.dds.step
  | .pll => rspWord .pll st s.pll.rfOn s.pll.power s.pll.freq s.pll.step

/-- `respond(st)`: ends the command with the snapshot of the state it is given (00 R15; 44 R180 step 5, R185). -/
def respond (u : UnitSel) (cls : OutcomeClass) (s : State) : State :=
  { s with rsplog := s.rsplog ++ [⟨cls, snapshot u cls.status s⟩] }

/-- `Tx` and `Settle`: append events to the transmit log (00 R15; 10 R29). Every transmission completes (20 R52; log 16). -/
def tx (events : List TxEvent) (s : State) : State :=
  { s with txlog := s.txlog ++ events }

/-- `dds_transmit(f)` (40 R96). -/
def ddsTransmit (f : Hz) (s : State) : State := tx [ddsFrame (ddsTuningWord s.cfg f)] s

/-- `pll_update()`: recompute the register set from the registers and transmit all six words (43 R150). -/
def pllUpdate (s : State) : State := tx (pllTransmit (pllEncode s.cfg s.pll.freq s.pll.rfOn s.pll.power)) s

/-- The strap of a unit (10 R27). -/
def usable (u : UnitSel) (s : State) : Bool :=
  match u with
  | .dds => s.ddsUsable
  | .pll => s.pllUsable

/-- Steps 2, 4 and 5 of the dispatch (44 R180) around a command's own rule: an unusable unit changes nothing and answers
`ERROR` (60 R203, D16; log 10); otherwise the rule runs and the response is built from the state it leaves. -/
def runCommand (u : UnitSel) (rule : State → OutcomeClass × State) (s : State) : Host.Outcome State Fault Refusal :=
  .next (if usable u s then respond u (rule s).1 (rule s).2 else respond u .unavailable s)

/-- The rule of a command whose request is ignored: no register is written and nothing is transmitted (60 R201, R207). -/
def ignored (cls : OutcomeClass) (s : State) : OutcomeClass × State := (cls, s)

/-- The default no-op of a unit: an unknown sub-action or a missing parameter (44 R183, R184; 30 R66). -/
def execDefaultNoOp (u : UnitSel) (cls : OutcomeClass) (s : State) : Host.Outcome State Fault Refusal :=
  runCommand u (ignored cls) s

end Sys2Proof.Machine
end

