-- ==== Sys2Proof/Machine/Flags.lean ====
section
/-! DEFINITION. The block's flags (spec 10 R25): `DDS.en` and `PLL.rf_on`. `dirty` is transient and no register (R30; log 19).
No command writes a flag except through these operations. -/

namespace Sys2Proof.Machine

/-- `DDS.en <- b` (42 R135, R136). -/
def setDdsEn (b : Bool) (s : State) : State := { s with dds := { s.dds with en := b } }

/-- `PLL.rf_on <- b` (43 R156, R157, R158). -/
def setPllRfOn (b : Bool) (s : State) : State := { s with pll := { s.pll with rfOn := b } }

/-- `dds_transmit(f)` if the unit is Enabled; otherwise the frequency stays latched (42 R130, R131). -/
def ddsTransmitIfEnabled (f : Hz) (s : State) : State := if s.dds.en then ddsTransmit f s else s

end Sys2Proof.Machine
end

