-- ==== Sys2Proof/Machine/Operands.lean ====
section
/-! DEFINITION. The operand forms of the commands and their validity tests: a frequency, a step, a direction, a power index
(spec 30 R64; 42 R131 to R134; 43 R151 to R155; 60 R201). Sums and differences are over the integers (D19; log 22). -/

namespace Sys2Proof.Machine

/-- The test of DDS.SETF (42 R131). -/
def ddsFreqInRange (f : Hz) : Bool := decide (f.toNat ≤ Config.ddsFmax)

/-- The test of PLL.SETF, PLL.UP and PLL.DOWN, over the integers (43 R151, R152, R153). -/
def pllFreqInRange (n : Int) : Bool := decide ((Config.pllFmin : Int) ≤ n ∧ n ≤ (Config.pllFmax : Int))

/-- The test of PLL.SETSTEP (43 R155). -/
def pllStepInSet (step : Hz) : Bool := decide (step.toNat ∈ Config.pllSteps)

/-- The test of PLL.SETPWR, over all 64 bits (43 R154, D28; log 30). -/
def pllPowerInRange (p : Hz) : Bool := decide (p.toNat ≤ Config.pllPmax)

/-- `freq + step` over the integers (42 R132; 43 R152). -/
def stepUp (freq step : Hz) : Int := (freq.toNat : Int) + (step.toNat : Int)

/-- `freq - step` over the integers, negative results included (42 R133; 43 R153). -/
def stepDown (freq step : Hz) : Int := (freq.toNat : Int) - (step.toNat : Int)

/-- DDS.UP's saturation: `f' = min(n, DDS_FMAX)` (42 R132). -/
def ddsClampHigh (n : Int) : Hz := BitVec.ofInt 64 (min n (Config.ddsFmax : Int))

/-- DDS.DOWN's saturation: `f' = max(n, 0)` (42 R133). The rule has no upper test here, since no run holds a frequency above
`DDS_FMAX` (10 R22). -/
def ddsClampLow (n : Int) : Hz := BitVec.ofInt 64 (max n 0)

/-- `DDS.freq <- f`, transmitted if Enabled: the accepted part of DDS.SETF, DDS.UP and DDS.DOWN. -/
def ddsStoreFreq (f : Hz) (s : State) : OutcomeClass × State :=
  (.accepted, ddsTransmitIfEnabled f { s with dds := { s.dds with freq := f } })

/-- The test, the write and the update of PLL.SETF, PLL.UP and PLL.DOWN: not clamped (43 R151, R152, R153). -/
def pllStoreFreq (n : Int) (s : State) : OutcomeClass × State :=
  if pllFreqInRange n then (.accepted, pllUpdate { s with pll := { s.pll with freq := BitVec.ofInt 64 n } })
  else ignored .outOfRange s

end Sys2Proof.Machine
end

