-- ==== Sys2Proof/Machine/Dds.lean ====
section
/-! DEFINITION. The meanings of the DDS commands (spec 42; DDS.STATUS: 44 R181). -/

namespace Sys2Proof.Machine

/-- DDS.STATUS (R181): the response alone. -/
def execDdsStatus (s : State) : Host.Outcome State Fault Refusal :=
  runCommand .dds (fun t => (.accepted, t)) s

/-- DDS.SETF (R131). -/
def execDdsSetf (arg : Hz) (s : State) : Host.Outcome State Fault Refusal :=
  runCommand .dds (fun t => if ddsFreqInRange arg then ddsStoreFreq arg t else ignored .outOfRange t) s

/-- DDS.UP (R132): clamped, never rejected. -/
def execDdsUp (s : State) : Host.Outcome State Fault Refusal :=
  runCommand .dds (fun t => ddsStoreFreq (ddsClampHigh (stepUp t.dds.freq t.dds.step)) t) s

/-- DDS.DOWN (R133): clamped, never rejected. -/
def execDdsDown (s : State) : Host.Outcome State Fault Refusal :=
  runCommand .dds (fun t => ddsStoreFreq (ddsClampLow (stepDown t.dds.freq t.dds.step)) t) s

/-- DDS.SETSTEP (R134): any value. -/
def execDdsSetstep (arg : Hz) (s : State) : Host.Outcome State Fault Refusal :=
  runCommand .dds (fun t => (.accepted, { t with dds := { t.dds with step := arg } })) s

/-- DDS.EN (R135): transmits whether or not the flag changed (D17; log 21). -/
def execDdsEn (s : State) : Host.Outcome State Fault Refusal :=
  runCommand .dds (fun t => (.accepted, ddsTransmit t.dds.freq (setDdsEn true t))) s

/-- DDS.DIS (R136): the frame of frequency 0; the stored frequency is kept. -/
def execDdsDis (s : State) : Host.Outcome State Fault Refusal :=
  runCommand .dds (fun t => (.accepted, ddsTransmit 0#64 (setDdsEn false t))) s

end Sys2Proof.Machine
end

