-- ==== Sys2Proof/Machine/Pll.lean ====
section
/-! DEFINITION. The meanings of the PLL commands (spec 43; PLL.STATUS: 44 R182). -/

namespace Sys2Proof.Machine

/-- PLL.STATUS (R182): the response alone. -/
def execPllStatus (s : State) : Host.Outcome State Fault Refusal :=
  runCommand .pll (fun t => (.accepted, t)) s

/-- PLL.SETF (R151). -/
def execPllSetf (arg : Hz) (s : State) : Host.Outcome State Fault Refusal :=
  runCommand .pll (fun t => pllStoreFreq (arg.toNat : Int) t) s

/-- PLL.UP (R152): ignored, not clamped, outside the range. -/
def execPllUp (s : State) : Host.Outcome State Fault Refusal :=
  runCommand .pll (fun t => pllStoreFreq (stepUp t.pll.freq t.pll.step) t) s

/-- PLL.DOWN (R153): ignored, not clamped, outside the range. -/
def execPllDown (s : State) : Host.Outcome State Fault Refusal :=
  runCommand .pll (fun t => pllStoreFreq (stepDown t.pll.freq t.pll.step) t) s

/-- PLL.SETSTEP (R155): stores, never transmits. -/
def execPllSetstep (arg : Hz) (s : State) : Host.Outcome State Fault Refusal :=
  runCommand .pll (fun t =>
    if pllStepInSet arg then (.accepted, { t with pll := { t.pll with step := arg } }) else ignored .outOfRange t) s

/-- PLL.EN (R156): sets the flag and updates whether or not it changed (D17; log 21). -/
def execPllEn (s : State) : Host.Outcome State Fault Refusal :=
  runCommand .pll (fun t => (.accepted, pllUpdate (setPllRfOn true t))) s

/-- PLL.DIS (R157): clears the flag and updates. -/
def execPllDis (s : State) : Host.Outcome State Fault Refusal :=
  runCommand .pll (fun t => (.accepted, pllUpdate (setPllRfOn false t))) s

/-- PLL.SETPWR (R154). -/
def execPllSetpwr (arg : Hz) (s : State) : Host.Outcome State Fault Refusal :=
  runCommand .pll (fun t =>
    if pllPowerInRange arg then (.accepted, pllUpdate { t with pll := { t.pll with power := arg.setWidth 2 } })
    else ignored .outOfRange t) s

/-- PLL.TOGGLE (R158): inverts the flag and updates. -/
def execPllToggle (s : State) : Host.Outcome State Fault Refusal :=
  runCommand .pll (fun t => (.accepted, pllUpdate (setPllRfOn (!t.pll.rfOn) t))) s

end Sys2Proof.Machine
end

