-- ==== Sys2Proof/Machine/Dispatch.lean ====
section
/-! DEFINITION. The dispatch of a decoded command to its meaning (spec 44 R180 step 4): one arm per command. -/

namespace Sys2Proof.Machine

def exec (i : Instr) (s : State) : Host.Outcome State Fault Refusal :=
  match i with
  | .ddsStatus => Sys2Proof.Machine.execDdsStatus s
  | .ddsSetf arg => Sys2Proof.Machine.execDdsSetf arg s
  | .ddsUp => Sys2Proof.Machine.execDdsUp s
  | .ddsDown => Sys2Proof.Machine.execDdsDown s
  | .ddsSetstep arg => Sys2Proof.Machine.execDdsSetstep arg s
  | .ddsEn => Sys2Proof.Machine.execDdsEn s
  | .ddsDis => Sys2Proof.Machine.execDdsDis s
  | .pllStatus => Sys2Proof.Machine.execPllStatus s
  | .pllSetf arg => Sys2Proof.Machine.execPllSetf arg s
  | .pllUp => Sys2Proof.Machine.execPllUp s
  | .pllDown => Sys2Proof.Machine.execPllDown s
  | .pllSetstep arg => Sys2Proof.Machine.execPllSetstep arg s
  | .pllEn => Sys2Proof.Machine.execPllEn s
  | .pllDis => Sys2Proof.Machine.execPllDis s
  | .pllSetpwr arg => Sys2Proof.Machine.execPllSetpwr arg s
  | .pllToggle => Sys2Proof.Machine.execPllToggle s

end Sys2Proof.Machine
end

