-- ==== Sys2Proof/Machine/Router.lean ====
section
/-! DEFINITION. What the block does with one presented command word (spec 44 R180; 30 R61, R65, R66), and how the host's next
word is taken (10 R24; 70 R233). -/

namespace Sys2Proof.Machine

/-- One command word, from decode to response (R180): a word of the opcode table runs its command, any other word of unit 0 or
1 is the unit's default no-op (log 9), a word of unit 2 or 3 is refused (log 8). -/
def runWord (w : Cmd) (s : State) : Host.Outcome State Fault Refusal :=
  match decode w with
  | .ok i => exec i s
  | .error (.unknownOp u) => execDefaultNoOp u .unknownOp s
  | .error (.missingParam u) => execDefaultNoOp u .missingParam s
  | .error (.noSuchUnit n) => .refused (.noSuchUnit n)

/-- One step of the block: the host's next word is taken and run to its response before the next one (R24, R180; 20 R50).
With no word presented the block waits and nothing changes. DEDUCED (log 1). -/
def serveHost (s : State) : Host.Outcome State Fault Refusal :=
  match s.host with
  | [] => .next s
  | w :: rest => runWord w { s with host := rest }

/-- The host presents `w` as its next word (70 R233). -/
def present (w : Cmd) (s : State) : State := { s with host := w :: s.host }

end Sys2Proof.Machine
end

