-- ==== Sys2Proof/Machine/Step.lean ====
section
/-! DEFINITION. The step function: one command word, one atomic transition (spec 20 R50; 70 R250). -/

namespace Sys2Proof.Machine

/-- One step. A configuration that is not well-formed is refused (00 R8; log 6). -/
def step (s : State) : Host.Outcome State Fault Refusal :=
  if s.cfg.WellFormed then serveHost s else .refused .illFormedConfig

/-- `s` with the opcode-table word `w` presented as the host's next word (log 2). -/
def State.withFetchWord (s : State) (nbits w : Nat) : State := present (tableWord nbits w) s

end Sys2Proof.Machine
end

