-- ==== Sys2Proof/Machine/HostText.lean ====
section
/-! DEFINITION. The textual form of commands and responses (spec 30 R77, R78, R79): the mapping of IV's JSON object, its
fields already parsed, to the command word, and the fields read back from a response word. The translator is outside the
block (R77; log 25), and so is the JSON text of a response (R78; log 34): `step` never calls anything in this file. -/

namespace Sys2Proof.Machine

/-- The `accion` of a command (R77). -/
inductive Accion where
  /-- `ad9850_command` -/
  | ad9850
  /-- `adf4351_command` -/
  | adf4351
  /-- `vfo_command` -/
  | vfo
  deriving DecidableEq, Repr

/-- `unit` (R77). -/
def Accion.unit : Accion → BitVec 2
  | .ad9850 => 0#2
  | .adf4351 => 1#2
  | .vfo => 2#2

/-- The `direccion` of a `change_freq`. -/
inductive Direccion where
  | up
  | down
  deriving DecidableEq, Repr

/-- The `sub_accion` of a command with its field (R77). A field is `none` when it is absent or is no value of the field's kind
(a `direccion` other than up and down, a wrong JSON type). -/
inductive SubAccion where
  | setFreq (frecuenciaHz : Option Int)
  | changeFreq (direccion : Option Direccion)
  | setStep (pasoHz : Option Int)
  | enable
  | disable
  | setPower (potencia : Option Int)
  | toggleRf
  /-- any other text; the translator may give it any `op` in 8 to 15, here `8 + k` -/
  | other (k : Fin 8)
  deriving DecidableEq, Repr

/-- A command word from any `unit` number (R60), the reserved bit 0. -/
def rawCmd (unit : BitVec 2) (op : BitVec 4) (argp : Bool) (arg : Hz) : Cmd :=
  unit ++ op ++ BitVec.ofBool argp ++ 0#1 ++ arg

/-- A numeric parameter as `argp` and `arg`: absent, negative and above 2^64 − 1 give `argp` = 0 (R77, D36). -/
def numberArg (n : Option Int) : Bool × Hz :=
  match n with
  | none => (false, 0#64)
  | some v => if 0 ≤ v ∧ v < 18446744073709551616 then (true, BitVec.ofInt 64 v) else (false, 0#64)

/-- A direction as `argp` and `arg` (R77). -/
def direccionArg (d : Option Direccion) : Bool × Hz :=
  match d with
  | none => (false, 0#64)
  | some .up => (true, 1#64)
  | some .down => (true, 0#64)

/-- The mapping of R77. -/
def translateText (a : Accion) (sub : SubAccion) : Cmd :=
  match sub with
  | .setFreq n => rawCmd a.unit 1#4 (numberArg n).1 (numberArg n).2
  | .changeFreq d => rawCmd a.unit 2#4 (direccionArg d).1 (direccionArg d).2
  | .setStep n => rawCmd a.unit 3#4 (numberArg n).1 (numberArg n).2
  | .enable => rawCmd a.unit 4#4 false 0#64
  | .disable => rawCmd a.unit 5#4 false 0#64
  | .setPower n => rawCmd a.unit 6#4 (numberArg n).1 (numberArg n).2
  | .toggleRf => rawCmd a.unit 7#4 false 0#64
  | .other k => rawCmd a.unit (BitVec.ofNat 4 (8 + k.val)) false 0#64

/-- `RSP[135:134]` (R68). -/
def rspUnit (r : Rsp) : BitVec 2 := r.extractLsb' 134 2
/-- `RSP[133]` (R68): 0 is IV's "ok", 1 its "explicit error status" (R78). -/
def rspStatus (r : Rsp) : Bool := r.getLsbD 133
/-- `RSP[132]` (R68). -/
def rspEn (r : Rsp) : Bool := r.getLsbD 132
/-- `RSP[131:130]` (R68). -/
def rspPower (r : Rsp) : BitVec 2 := r.extractLsb' 130 2
/-- `RSP[129:128]` (R68): reserved, 0. -/
def rspReserved (r : Rsp) : BitVec 2 := r.extractLsb' 128 2
/-- `RSP[127:64]` (R68). -/
def rspFreq (r : Rsp) : Hz := r.extractLsb' 64 64
/-- `RSP[63:0]` (R68). -/
def rspStep (r : Rsp) : Hz := r.extractLsb' 0 64

/-! ### The textual form of a response (R78) -/

/-- A number in the JSON text. -/
inductive NumberText where
  /-- a JSON number -/
  | numeric (n : Nat)
  /-- the decimal digits of the number, as text -/
  | decimalText (n : Nat)
  deriving DecidableEq, Repr

/-- The JSON object of a response (R78). The key names inside `datos`, the suffix of `accion` and the text of the error status
are not in the spec, so each is told by what it stands for. -/
structure ResponseText where
  /-- `status`: "ok", or IV's "explicit error status" -/
  status : RspStatus
  /-- the backend that `accion` names -/
  backend : UnitSel
  /-- `datos`: the snapshot's flag -/
  en : Bool
  /-- `datos`: the snapshot's power index -/
  power : Nat
  /-- `datos`: the snapshot's frequency -/
  freq : NumberText
  /-- `datos`: the snapshot's step -/
  step : NumberText
  deriving DecidableEq, Repr

/-- The unit a `unit` field names, if it is one of the block's (R61). -/
def unitOfCode (code : BitVec 2) : Option UnitSel :=
  match code.toNat with
  | 0 => some .dds
  | 1 => some .pll
  | _ => none

/-- The greatest integer the text carries as a number on the PLL backend (log 34). -/
def textSafeMax : Nat := if Config.textSafeIsSigned then 2147483647 else 4294967295

/-- A frequency in the text: "frequencies exceeding 32-bit-safe integer representation are encoded as decimal text, not numeric
... (PLL backend only)" (R78). -/
def freqText (u : UnitSel) (f : Hz) : NumberText :=
  match u with
  | .dds => .numeric f.toNat
  | .pll => if f.toNat ≤ textSafeMax then .numeric f.toNat else .decimalText f.toNat

/-- `RSP.status` as a status (R68, R78). -/
def statusOfBit (b : Bool) : RspStatus := if b then .error else .ok

/-- The textual form of a response word (R78); none for a `unit` that answers nothing (R61). -/
def responseText (r : Rsp) : Option ResponseText :=
  (unitOfCode (rspUnit r)).map fun u =>
    { status := statusOfBit (rspStatus r)
      backend := u
      en := rspEn r
      power := (rspPower r).toNat
      freq := freqText u (rspFreq r)
      step := .numeric (rspStep r).toNat }

end Sys2Proof.Machine
end

