-- ==== Sys2Proof/Safety.lean ====
section
/-! DEFINITION. What counts as a safe run, in the terms the statements use: the registers stay in their bounds (spec 10 R22,
R23), the configuration and the straps stand (R26, R27), the log is made of whole transmissions (20 R46), and what the log
says was last sent agrees with the registers (42 R137, 43 R159). -/

namespace Sys2Proof.Machine

/-- The DDS frames of a log, in order (the DDS stream, 20 R40). -/
def ddsStream (log : List TxEvent) : List TxEvent :=
  log.filter fun
    | .ddsFrame .. => true
    | _ => false

/-- The PLL words and settles of a log, in order (the PLL stream, 20 R40). -/
def pllStream (log : List TxEvent) : List TxEvent :=
  log.filter fun
    | .ddsFrame .. => false
    | _ => true

/-- The bounds of the stored registers (10 R22, R23). `PLL.power ≤ 3` is its width. -/
def RegsInBounds (s : State) : Prop :=
  s.dds.freq.toNat ≤ Config.ddsFmax ∧
  (Config.pllFmin ≤ s.pll.freq.toNat ∧ s.pll.freq.toNat ≤ Config.pllFmax) ∧
  s.pll.step.toNat ∈ Config.pllSteps

/-- The straps are the ones the configuration gives (10 R27, R31). -/
def StrapsAsBuilt (s : State) : Prop := s.ddsUsable = s.cfg.ddsUsable ∧ s.pllUsable = s.cfg.pllUsable

/-- The events of the last PLL transmission, if the registers are what it carried. -/
def currentPllTransmission (s : State) : List TxEvent :=
  pllTransmit (pllEncode s.cfg s.pll.freq s.pll.rfOn s.pll.power)

/-- What the DDS chip was last sent (42 R137): if there is a frame, the last one is the frame of the stored frequency when the
unit is Enabled and the zero frame when it is Disabled. -/
def DdsChipAgrees (s : State) : Prop :=
  ∀ e, (ddsStream s.txlog).getLast? = some e →
    e = if s.dds.en then ddsFrame (ddsTuningWord s.cfg s.dds.freq) else .ddsFrame 0 0 0 0 0

/-- What the PLL chip was last sent (43 R159): if there is a PLL event, the last twelve are the transmission of the current
registers. -/
def PllChipAgrees (s : State) : Prop :=
  pllStream s.txlog ≠ [] → currentPllTransmission s <:+ pllStream s.txlog

/-- One transmission as the block makes it (20 R46, R47): a DDS frame of 40 bits or six PLL words of 32. -/
inductive Transmission where
  | dds (w : Word32)
  | pll (ws : PllWords)
  deriving DecidableEq, Repr

/-- The events of one transmission. -/
def Transmission.events : Transmission → List TxEvent
  | .dds w => [ddsFrame w]
  | .pll ws => pllTransmit ws

/-- "each carries its own index" (20 R48): a PLL transmission's words name themselves in their low three bits. -/
def Transmission.Addressed : Transmission → Prop
  | .dds _ => True
  | .pll ws => ∀ i : Fin 6, ws.word i &&& 7#32 = BitVec.ofNat 32 i.val

/-- The log is a sequence of whole, correctly addressed transmissions (20 R46, R48). -/
def LogOfWholeTransmissions (log : List TxEvent) : Prop :=
  ∃ ts : List Transmission, log = ts.flatMap Transmission.events ∧ ∀ t ∈ ts, t.Addressed

/-- The register part of a state, with the configuration and the straps: what a failing command leaves alone (60 R207). -/
def SameButResponses (s t : State) : Prop :=
  t.dds = s.dds ∧ t.pll = s.pll ∧ t.ddsUsable = s.ddsUsable ∧ t.pllUsable = s.pllUsable ∧ t.cfg = s.cfg ∧
  t.txlog = s.txlog ∧ t.host = s.host

end Sys2Proof.Machine
end

