-- ==== Sys2Proof/Certificates/Slice0/Obligations.lean ====
section
/-! DEFINITION. The statements for the provers, from the numbered rules of spec/. `OBLIGATIONS.json` names the rules each one
rests on. A statement `exec i s = .next { s with … }` is also the command's frame: every register, strap, log entry and host
word it does not name is unchanged. Every statement that a command or a step ends in a next state rests on the assumption that
a bus write completes (20 R52, 70 R241; log 16). -/

open Sys2Proof Sys2Proof.Machine

/-! ## Encoding -/

/-- Decoding what a sender encodes gives the command back, every operand at every value (30 R60, R62 to R65, R80). -/
def Obligations.DecodeInvertsEncode : Prop :=
  ∀ i : Instr, decode (encode i) = .ok i

/-- Encoding a decoded word gives the word's own bits back wherever the command depends on them, and 0 elsewhere (30 R60, R63,
R64; the zeros are the model's choice, log 26). -/
def Obligations.EncodeRestoresSignificantBits : Prop :=
  ∀ (w : Cmd) (i : Instr), decode w = .ok i → encode i = w &&& i.significantBits

/-- 30 R65: units 2 and 3 are refused; the rows of the opcode table are disjoint; a word decodes to a command exactly when it
satisfies that command's row, with `arg` whole as the operand; a word of unit 0 or 1 that satisfies none is the unit's default
no-op. -/
def Obligations.DecodingFollowsTheOpcodeTable : Prop :=
  ∀ w : Cmd,
    (2 ≤ (cmdUnit w).toNat → decode w = .error (.noSuchUnit (cmdUnit w))) ∧
    (∀ i j : Instr, (opcodeRow i).Matches w → (opcodeRow j).Matches w → opcodeRow i = opcodeRow j) ∧
    (∀ i : Instr, decode w = .ok i ↔ (opcodeRow i).Matches w ∧ ∀ a, i.operand = some a → a = cmdArg w) ∧
    ((cmdUnit w).toNat < 2 → (∀ i : Instr, ¬ (opcodeRow i).Matches w) →
      ∃ u : UnitSel, u.code = cmdUnit w ∧ (decode w = .error (.unknownOp u) ∨ decode w = .error (.missingParam u)))

/-- Words written out from 30 R60 and R80 decode to the command they stand for: one of each shape of each unit. -/
def Obligations.WrittenWordsDecode : Prop :=
  decode 0x0600000000000F4240#72 = .ok (.ddsSetf 1000000#64) ∧ decode 0x0A0000000000000001#72 = .ok .ddsUp ∧
  decode 0x140000000000000000#72 = .ok .ddsDis ∧ decode 0x460000000019DD1800#72 = .ok (.pllSetf 433920000#64) ∧
  decode 0x4A0000000000000000#72 = .ok .pllDown ∧ decode 0x5A0000000000000003#72 = .ok (.pllSetpwr 3#64) ∧
  decode 0x5C0000000000000000#72 = .ok .pllToggle ∧ decode 0x400000000000000000#72 = .ok .pllStatus

/-- 30 R77, which puts the translator outside the block (log 25): the JSON object's mapping, told through the decoder: each
sub-action of each unit becomes its command, a missing or malformed field (a negative number, one above 2^64 − 1; D36) the
missing-parameter no-op, `set_power` and `toggle_rf` on the DDS and any other text an unknown sub-action, and `vfo_command` a
refused word. -/
def Obligations.TextCommandsTranslate : Prop :=
  (∀ n : Int, 0 ≤ n → n < 2 ^ 64 →
    decode (translateText .ad9850 (.setFreq (some n))) = .ok (.ddsSetf (BitVec.ofInt 64 n)) ∧
    decode (translateText .adf4351 (.setFreq (some n))) = .ok (.pllSetf (BitVec.ofInt 64 n)) ∧
    decode (translateText .ad9850 (.setStep (some n))) = .ok (.ddsSetstep (BitVec.ofInt 64 n)) ∧
    decode (translateText .adf4351 (.setStep (some n))) = .ok (.pllSetstep (BitVec.ofInt 64 n)) ∧
    decode (translateText .adf4351 (.setPower (some n))) = .ok (.pllSetpwr (BitVec.ofInt 64 n))) ∧
  decode (translateText .ad9850 (.changeFreq (some .up))) = .ok .ddsUp ∧
  decode (translateText .ad9850 (.changeFreq (some .down))) = .ok .ddsDown ∧
  decode (translateText .adf4351 (.changeFreq (some .up))) = .ok .pllUp ∧
  decode (translateText .adf4351 (.changeFreq (some .down))) = .ok .pllDown ∧
  decode (translateText .ad9850 .enable) = .ok .ddsEn ∧ decode (translateText .ad9850 .disable) = .ok .ddsDis ∧
  decode (translateText .adf4351 .enable) = .ok .pllEn ∧ decode (translateText .adf4351 .disable) = .ok .pllDis ∧
  decode (translateText .adf4351 .toggleRf) = .ok .pllToggle ∧
  (∀ p : Option Int, (∀ n, p = some n → n < 0 ∨ 2 ^ 64 ≤ n) →
    decode (translateText .ad9850 (.setFreq p)) = .error (.missingParam .dds) ∧
    decode (translateText .adf4351 (.setFreq p)) = .error (.missingParam .pll) ∧
    decode (translateText .ad9850 (.setStep p)) = .error (.missingParam .dds) ∧
    decode (translateText .adf4351 (.setStep p)) = .error (.missingParam .pll) ∧
    decode (translateText .adf4351 (.setPower p)) = .error (.missingParam .pll)) ∧
  decode (translateText .ad9850 (.changeFreq none)) = .error (.missingParam .dds) ∧
  decode (translateText .adf4351 (.changeFreq none)) = .error (.missingParam .pll) ∧
  (∀ p : Option Int, decode (translateText .ad9850 (.setPower p)) = .error (.unknownOp .dds)) ∧
  decode (translateText .ad9850 .toggleRf) = .error (.unknownOp .dds) ∧
  (∀ k : Fin 8, decode (translateText .ad9850 (.other k)) = .error (.unknownOp .dds) ∧
    decode (translateText .adf4351 (.other k)) = .error (.unknownOp .pll)) ∧
  ∀ sub : SubAccion, decode (translateText .vfo sub) = .error (.noSuchUnit 2#2)

/-! ## The step, the dispatch and the outcome classes -/

/-- When the host's next word decodes to a command, the step takes that word and is the command's `exec` (44 R180; 10 R24). -/
def Obligations.StepRunsTheDecodedCommand : Prop :=
  ∀ (s : State) (w : Cmd) (rest : List Cmd) (i : Instr), s.cfg.WellFormed → s.host = w :: rest → decode w = .ok i →
    step s = exec i { s with host := rest }

/-- What the step refuses, and nothing else: a word of unit 2 or 3 (30 R61, R65), and every state whose configuration is
ill-formed. The second is the model's choice (log 6): R8 has the model refuse such a `Cfg` and does not say at which moment. So
are the wait while no word is presented (log 1) and that no step faults (log 28). That every other word leads to a next state
assumes a bus that completes (70 R241; log 16). -/
def Obligations.StepRefusesOnlyByRule : Prop :=
  (∀ s : State, ¬ s.cfg.WellFormed → step s = .refused .illFormedConfig) ∧
  (∀ (s : State) (w : Cmd) (rest : List Cmd), s.cfg.WellFormed → s.host = w :: rest → 2 ≤ (cmdUnit w).toNat →
    step s = .refused (.noSuchUnit (cmdUnit w))) ∧
  (∀ (s : State) (w : Cmd) (rest : List Cmd), s.cfg.WellFormed → s.host = w :: rest → (cmdUnit w).toNat < 2 →
    ∃ t, step s = .next t) ∧
  ∀ s : State, s.cfg.WellFormed → s.host = [] → step s = .next s

/-- 44 R183: on a usable unit, `op` 8 to 15, and `op` 6 or 7 of the DDS unit, changes no register, transmits nothing and
answers `OK` with the snapshot: all that can be observed is what the unit's STATUS command does. -/
def Obligations.UnknownSubActionIsNoOp : Prop :=
  ∀ (u : UnitSel) (s : State) (w : Cmd) (rest : List Cmd), s.cfg.WellFormed → s.host = w :: rest → cmdUnit w = u.code →
    usable u s = true → (8 ≤ (cmdOp w).toNat ∨ u = .dds ∧ 6 ≤ (cmdOp w).toNat) →
    step s = .next { s with host := rest, rsplog := s.rsplog ++ [⟨.unknownOp, snapshot u .ok s⟩] } ∧
    exec (match u with
      | .dds => .ddsStatus
      | .pll => .pllStatus) { s with host := rest } =
      .next { s with host := rest, rsplog := s.rsplog ++ [⟨.accepted, snapshot u .ok s⟩] }

/-- 44 R184: on a usable unit, `op` 1, 2 or 3, and `op` 6 of the PLL unit, with `argp` = 0 changes no register, transmits
nothing and answers `OK` with the snapshot, whatever `arg` holds. -/
def Obligations.MissingParameterIsNoOp : Prop :=
  ∀ (u : UnitSel) (s : State) (w : Cmd) (rest : List Cmd), s.cfg.WellFormed → s.host = w :: rest → cmdUnit w = u.code →
    usable u s = true → cmdArgp w = false →
    ((cmdOp w).toNat = 1 ∨ (cmdOp w).toNat = 2 ∨ (cmdOp w).toNat = 3 ∨ u = .pll ∧ (cmdOp w).toNat = 6) →
    step s = .next { s with host := rest, rsplog := s.rsplog ++ [⟨.missingParam, snapshot u .ok s⟩] }

/-- 60 R203: every command to an unusable unit, and every other word for it, changes nothing, transmits nothing and answers
`ERROR` with the unchanged snapshot; no step changes a strap, and no other outcome answers `ERROR`. -/
def Obligations.UnusableUnitAnswersErrorOnly : Prop :=
  (∀ (i : Instr) (s : State), usable i.unit s = false →
    exec i s = .next { s with rsplog := s.rsplog ++ [⟨.unavailable, snapshot i.unit .error s⟩] }) ∧
  (∀ (u : UnitSel) (s : State) (w : Cmd) (rest : List Cmd), s.cfg.WellFormed → s.host = w :: rest → cmdUnit w = u.code →
    usable u s = false →
    step s = .next { s with host := rest, rsplog := s.rsplog ++ [⟨.unavailable, snapshot u .error s⟩] }) ∧
  (∀ s t : State, step s = .next t → ∀ u : UnitSel, usable u t = usable u s) ∧
  ∀ cls : OutcomeClass, cls.status = .error ↔ cls = .unavailable

/-- 30 R67: a word of unit 0 or 1 is answered by exactly one response, for the unit it named. -/
def Obligations.EveryCommandGetsOneResponse : Prop :=
  ∀ (s : State) (w : Cmd) (rest : List Cmd), s.cfg.WellFormed → s.host = w :: rest → (cmdUnit w).toNat < 2 →
    ∃ t r, step s = .next t ∧ t.host = rest ∧ t.rsplog = s.rsplog ++ [r] ∧ rspUnit r.word = cmdUnit w

/-- 30 R68, field by field, read after the command's writes; 44 R185. -/
def Obligations.ResponseFieldsAreTheUnitsRegistersAfterward : Prop :=
  ∀ (i : Instr) (s t : State), exec i s = .next t →
    ∃ r, t.rsplog = s.rsplog ++ [r] ∧ rspUnit r.word = i.unit.code ∧ (rspStatus r.word = true ↔ r.cls = .unavailable) ∧
      rspReserved r.word = 0#2 ∧
      match i.unit with
      | .dds => rspEn r.word = t.dds.en ∧ rspPower r.word = 0#2 ∧ rspFreq r.word = t.dds.freq ∧ rspStep r.word = t.dds.step
      | .pll =>
        rspEn r.word = t.pll.rfOn ∧ rspPower r.word = t.pll.power ∧ rspFreq r.word = t.pll.freq ∧ rspStep r.word = t.pll.step

/-- 60 R207: after a failing command the registers and `TXLOG` are what they were before it. -/
def Obligations.FailingCommandChangesNothing : Prop :=
  ∀ (w : Cmd) (s t : State) (r : Response), runWord w s = .next t → t.rsplog = s.rsplog ++ [r] → r.cls ≠ .accepted →
    SameButResponses s t

/-- 60 R206: a refused unit has no class; otherwise, when several conditions hold, the class reported is the first of
`Unavailable`, `UnknownOp`, `MissingParam`, `OutOfRange` (when the last holds is `OutOfRangeExactlyWhen`). -/
def Obligations.OutcomeClassPriority : Prop :=
  (∀ (w : Cmd) (s : State), 2 ≤ (cmdUnit w).toNat → runWord w s = .refused (.noSuchUnit (cmdUnit w))) ∧
  ∀ (u : UnitSel) (w : Cmd) (s t : State) (r : Response), cmdUnit w = u.code → runWord w s = .next t →
    t.rsplog = s.rsplog ++ [r] →
    let unknown := 8 ≤ (cmdOp w).toNat ∨ u = .dds ∧ 6 ≤ (cmdOp w).toNat
    let missing := cmdArgp w = false ∧
      ((cmdOp w).toNat = 1 ∨ (cmdOp w).toNat = 2 ∨ (cmdOp w).toNat = 3 ∨ (cmdOp w).toNat = 6)
    (usable u s = false → r.cls = .unavailable) ∧
    (usable u s = true → unknown → r.cls = .unknownOp) ∧
    (usable u s = true → ¬ unknown → missing → r.cls = .missingParam) ∧
    (usable u s = true → ¬ unknown → ¬ missing → r.cls = .accepted ∨ r.cls = .outOfRange)

/-- 60 R201: on a usable unit whose registers are in their bounds (10 R22, R23), exactly these commands are `OutOfRange`, and
one that is changes nothing and answers `OK` with the unchanged snapshot. -/
def Obligations.OutOfRangeExactlyWhen : Prop :=
  ∀ (i : Instr) (s t : State) (r : Response), RegsInBounds s → usable i.unit s = true → exec i s = .next t →
    t.rsplog = s.rsplog ++ [r] →
    (r.cls = .outOfRange → t = { s with rsplog := s.rsplog ++ [⟨.outOfRange, snapshot i.unit .ok s⟩] }) ∧
    (r.cls = .outOfRange ↔
      match i with
      | .ddsSetf arg => 40000000 < arg.toNat
      | .pllSetf arg => arg.toNat < 35000000 ∨ 4400000000 < arg.toNat
      | .pllUp => 4400000000 < (s.pll.freq.toNat : Int) + s.pll.step.toNat
      | .pllDown => (s.pll.freq.toNat : Int) - s.pll.step.toNat < 35000000
      | .pllSetpwr arg => 3 < arg.toNat
      | .pllSetstep arg => arg.toNat ∉ [10, 100, 1000, 10000, 100000, 1000000, 10000000]
      | _ => False)

/-! ## The DDS commands -/

/-- DDS.STATUS: 44 R181. -/
def Obligations.DdsStatusReportsOnly : Prop :=
  (∀ w : Cmd, w &&& 0xFC0000000000000000#72 = 0x000000000000000000#72 → decode w = .ok .ddsStatus) ∧
  ∀ s : State, s.ddsUsable = true →
    exec .ddsStatus s = .next { s with
      rsplog := s.rsplog ++ [⟨.accepted, rspWord .dds .ok s.dds.en 0#2 s.dds.freq s.dds.step⟩] }

/-- DDS.SETF: 42 R131. -/
def Obligations.DdsSetfStoresOrIgnores : Prop :=
  (∀ w : Cmd, w &&& 0xFE0000000000000000#72 = 0x060000000000000000#72 → decode w = .ok (.ddsSetf (w.extractLsb' 0 64))) ∧
  (∀ (f : Hz) (s : State), s.ddsUsable = true → f.toNat ≤ 40000000 →
    exec (.ddsSetf f) s = .next { s with
      dds := { s.dds with freq := f }
      txlog := s.txlog ++ (if s.dds.en then [ddsFrame (ddsTuningWord s.cfg f)] else [])
      rsplog := s.rsplog ++ [⟨.accepted, rspWord .dds .ok s.dds.en 0#2 f s.dds.step⟩] }) ∧
  ∀ (f : Hz) (s : State), s.ddsUsable = true → 40000000 < f.toNat →
    exec (.ddsSetf f) s = .next { s with
      rsplog := s.rsplog ++ [⟨.outOfRange, rspWord .dds .ok s.dds.en 0#2 s.dds.freq s.dds.step⟩] }

/-- DDS.UP: 42 R132, the sum over the integers. -/
def Obligations.DdsUpSaturatesAtTheMaximum : Prop :=
  (∀ w : Cmd, w &&& 0xFE0000000000000001#72 = 0x0A0000000000000001#72 → decode w = .ok .ddsUp) ∧
  ∀ s : State, s.ddsUsable = true →
    ∃ g : Hz, (g.toNat : Int) = min ((s.dds.freq.toNat : Int) + s.dds.step.toNat) 40000000 ∧
      exec .ddsUp s = .next { s with
        dds := { s.dds with freq := g }
        txlog := s.txlog ++ (if s.dds.en then [ddsFrame (ddsTuningWord s.cfg g)] else [])
        rsplog := s.rsplog ++ [⟨.accepted, rspWord .dds .ok s.dds.en 0#2 g s.dds.step⟩] }

/-- DDS.DOWN: 42 R133, the difference over the integers. -/
def Obligations.DdsDownSaturatesAtZero : Prop :=
  (∀ w : Cmd, w &&& 0xFE0000000000000001#72 = 0x0A0000000000000000#72 → decode w = .ok .ddsDown) ∧
  ∀ s : State, s.ddsUsable = true →
    ∃ g : Hz, (g.toNat : Int) = max ((s.dds.freq.toNat : Int) - s.dds.step.toNat) 0 ∧
      exec .ddsDown s = .next { s with
        dds := { s.dds with freq := g }
        txlog := s.txlog ++ (if s.dds.en then [ddsFrame (ddsTuningWord s.cfg g)] else [])
        rsplog := s.rsplog ++ [⟨.accepted, rspWord .dds .ok s.dds.en 0#2 g s.dds.step⟩] }

/-- DDS.SETSTEP: 42 R134. -/
def Obligations.DdsSetstepStoresAnyStep : Prop :=
  (∀ w : Cmd, w &&& 0xFE0000000000000000#72 = 0x0E0000000000000000#72 →
    decode w = .ok (.ddsSetstep (w.extractLsb' 0 64))) ∧
  ∀ (d : Hz) (s : State), s.ddsUsable = true →
    exec (.ddsSetstep d) s = .next { s with
      dds := { s.dds with step := d }
      rsplog := s.rsplog ++ [⟨.accepted, rspWord .dds .ok s.dds.en 0#2 s.dds.freq d⟩] }

/-- DDS.EN: 42 R135. -/
def Obligations.DdsEnEnablesAndTransmits : Prop :=
  (∀ w : Cmd, w &&& 0xFC0000000000000000#72 = 0x100000000000000000#72 → decode w = .ok .ddsEn) ∧
  ∀ s : State, s.ddsUsable = true →
    exec .ddsEn s = .next { s with
      dds := { s.dds with en := true }
      txlog := s.txlog ++ [ddsFrame (ddsTuningWord s.cfg s.dds.freq)]
      rsplog := s.rsplog ++ [⟨.accepted, rspWord .dds .ok true 0#2 s.dds.freq s.dds.step⟩] }

/-- DDS.DIS: 42 R136: the zero frame; the frequency is kept. -/
def Obligations.DdsDisMutesAndKeepsTheFrequency : Prop :=
  (∀ w : Cmd, w &&& 0xFC0000000000000000#72 = 0x140000000000000000#72 → decode w = .ok .ddsDis) ∧
  ∀ s : State, s.ddsUsable = true →
    exec .ddsDis s = .next { s with
      dds := { s.dds with en := false }
      txlog := s.txlog ++ [.ddsFrame 0x00#8 0x00#8 0x00#8 0x00#8 0x00#8]
      rsplog := s.rsplog ++ [⟨.accepted, rspWord .dds .ok false 0#2 s.dds.freq s.dds.step⟩] }

/-! ## The PLL commands -/

/-- PLL.STATUS: 44 R182. -/
def Obligations.PllStatusReportsOnly : Prop :=
  (∀ w : Cmd, w &&& 0xFC0000000000000000#72 = 0x400000000000000000#72 → decode w = .ok .pllStatus) ∧
  ∀ s : State, s.pllUsable = true →
    exec .pllStatus s = .next { s with
      rsplog := s.rsplog ++ [⟨.accepted, rspWord .pll .ok s.pll.rfOn s.pll.power s.pll.freq s.pll.step⟩] }

/-- PLL.SETF: 43 R151. -/
def Obligations.PllSetfStoresOrIgnores : Prop :=
  (∀ w : Cmd, w &&& 0xFE0000000000000000#72 = 0x460000000000000000#72 → decode w = .ok (.pllSetf (w.extractLsb' 0 64))) ∧
  (∀ (f : Hz) (s : State), s.pllUsable = true → 35000000 ≤ f.toNat → f.toNat ≤ 4400000000 →
    exec (.pllSetf f) s = .next { s with
      pll := { s.pll with freq := f }
      txlog := s.txlog ++ pllTransmit (pllEncode s.cfg f s.pll.rfOn s.pll.power)
      rsplog := s.rsplog ++ [⟨.accepted, rspWord .pll .ok s.pll.rfOn s.pll.power f s.pll.step⟩] }) ∧
  ∀ (f : Hz) (s : State), s.pllUsable = true → (f.toNat < 35000000 ∨ 4400000000 < f.toNat) →
    exec (.pllSetf f) s = .next { s with
      rsplog := s.rsplog ++ [⟨.outOfRange, rspWord .pll .ok s.pll.rfOn s.pll.power s.pll.freq s.pll.step⟩] }

/-- PLL.UP: 43 R152: accepted within the bounds, otherwise ignored and not clamped. That an accepted step transmits is marked
derived in R152 (log 29). -/
def Obligations.PllUpStepsOrIgnores : Prop :=
  (∀ w : Cmd, w &&& 0xFE0000000000000001#72 = 0x4A0000000000000001#72 → decode w = .ok .pllUp) ∧
  (∀ s : State, s.pllUsable = true → 35000000 ≤ (s.pll.freq.toNat : Int) + s.pll.step.toNat →
    (s.pll.freq.toNat : Int) + s.pll.step.toNat ≤ 4400000000 →
    ∃ g : Hz, (g.toNat : Int) = (s.pll.freq.toNat : Int) + s.pll.step.toNat ∧
      exec .pllUp s = .next { s with
        pll := { s.pll with freq := g }
        txlog := s.txlog ++ pllTransmit (pllEncode s.cfg g s.pll.rfOn s.pll.power)
        rsplog := s.rsplog ++ [⟨.accepted, rspWord .pll .ok s.pll.rfOn s.pll.power g s.pll.step⟩] }) ∧
  ∀ s : State, s.pllUsable = true →
    ((s.pll.freq.toNat : Int) + s.pll.step.toNat < 35000000 ∨ 4400000000 < (s.pll.freq.toNat : Int) + s.pll.step.toNat) →
    exec .pllUp s = .next { s with
      rsplog := s.rsplog ++ [⟨.outOfRange, rspWord .pll .ok s.pll.rfOn s.pll.power s.pll.freq s.pll.step⟩] }

/-- PLL.DOWN: 43 R153: accepted within the bounds, otherwise (a negative difference too) ignored and not clamped. That an
accepted step transmits is marked derived in R152, whose sentence R153 shares (log 29). -/
def Obligations.PllDownStepsOrIgnores : Prop :=
  (∀ w : Cmd, w &&& 0xFE0000000000000001#72 = 0x4A0000000000000000#72 → decode w = .ok .pllDown) ∧
  (∀ s : State, s.pllUsable = true → 35000000 ≤ (s.pll.freq.toNat : Int) - s.pll.step.toNat →
    (s.pll.freq.toNat : Int) - s.pll.step.toNat ≤ 4400000000 →
    ∃ g : Hz, (g.toNat : Int) = (s.pll.freq.toNat : Int) - s.pll.step.toNat ∧
      exec .pllDown s = .next { s with
        pll := { s.pll with freq := g }
        txlog := s.txlog ++ pllTransmit (pllEncode s.cfg g s.pll.rfOn s.pll.power)
        rsplog := s.rsplog ++ [⟨.accepted, rspWord .pll .ok s.pll.rfOn s.pll.power g s.pll.step⟩] }) ∧
  ∀ s : State, s.pllUsable = true →
    ((s.pll.freq.toNat : Int) - s.pll.step.toNat < 35000000 ∨ 4400000000 < (s.pll.freq.toNat : Int) - s.pll.step.toNat) →
    exec .pllDown s = .next { s with
      rsplog := s.rsplog ++ [⟨.outOfRange, rspWord .pll .ok s.pll.rfOn s.pll.power s.pll.freq s.pll.step⟩] }

/-- PLL.SETSTEP: 43 R155: one of seven values. That nothing is transmitted is marked derived in R155. -/
def Obligations.PllSetstepStoresOrIgnores : Prop :=
  (∀ w : Cmd, w &&& 0xFE0000000000000000#72 = 0x4E0000000000000000#72 →
    decode w = .ok (.pllSetstep (w.extractLsb' 0 64))) ∧
  (∀ (d : Hz) (s : State), s.pllUsable = true → d.toNat ∈ [10, 100, 1000, 10000, 100000, 1000000, 10000000] →
    exec (.pllSetstep d) s = .next { s with
      pll := { s.pll with step := d }
      rsplog := s.rsplog ++ [⟨.accepted, rspWord .pll .ok s.pll.rfOn s.pll.power s.pll.freq d⟩] }) ∧
  ∀ (d : Hz) (s : State), s.pllUsable = true → d.toNat ∉ [10, 100, 1000, 10000, 100000, 1000000, 10000000] →
    exec (.pllSetstep d) s = .next { s with
      rsplog := s.rsplog ++ [⟨.outOfRange, rspWord .pll .ok s.pll.rfOn s.pll.power s.pll.freq s.pll.step⟩] }

/-- PLL.EN: 43 R156. -/
def Obligations.PllEnSetsRfOnAndUpdates : Prop :=
  (∀ w : Cmd, w &&& 0xFC0000000000000000#72 = 0x500000000000000000#72 → decode w = .ok .pllEn) ∧
  ∀ s : State, s.pllUsable = true →
    exec .pllEn s = .next { s with
      pll := { s.pll with rfOn := true }
      txlog := s.txlog ++ pllTransmit (pllEncode s.cfg s.pll.freq true s.pll.power)
      rsplog := s.rsplog ++ [⟨.accepted, rspWord .pll .ok true s.pll.power s.pll.freq s.pll.step⟩] }

/-- PLL.DIS: 43 R157: the frequency, power and step are kept, and no word but word 4 differs from the RF-on transmission, a
clause R157 marks derived. -/
def Obligations.PllDisClearsRfOnAndUpdates : Prop :=
  (∀ w : Cmd, w &&& 0xFC0000000000000000#72 = 0x540000000000000000#72 → decode w = .ok .pllDis) ∧
  (∀ s : State, s.pllUsable = true →
    exec .pllDis s = .next { s with
      pll := { s.pll with rfOn := false }
      txlog := s.txlog ++ pllTransmit (pllEncode s.cfg s.pll.freq false s.pll.power)
      rsplog := s.rsplog ++ [⟨.accepted, rspWord .pll .ok false s.pll.power s.pll.freq s.pll.step⟩] }) ∧
  ∀ (c : Cfg) (f : Hz) (p : BitVec 2), c.WellFormed →
    pllEncode c f true p =
      { pllEncode c f false p with w4 := (pllEncode c f false p).w4 ||| BitVec.twoPow 32 c.pllRfenBit } ∧
    (pllEncode c f false p).w4.getLsbD c.pllRfenBit = false

/-- PLL.SETPWR: 43 R154: the comparison is over all 64 bits. -/
def Obligations.PllSetpwrStoresOrIgnores : Prop :=
  (∀ w : Cmd, w &&& 0xFE0000000000000000#72 = 0x5A0000000000000000#72 →
    decode w = .ok (.pllSetpwr (w.extractLsb' 0 64))) ∧
  (∀ (p : Hz) (s : State), s.pllUsable = true → p.toNat ≤ 3 →
    exec (.pllSetpwr p) s = .next { s with
      pll := { s.pll with power := p.extractLsb' 0 2 }
      txlog := s.txlog ++ pllTransmit (pllEncode s.cfg s.pll.freq s.pll.rfOn (p.extractLsb' 0 2))
      rsplog := s.rsplog ++ [⟨.accepted, rspWord .pll .ok s.pll.rfOn (p.extractLsb' 0 2) s.pll.freq s.pll.step⟩] }) ∧
  ∀ (p : Hz) (s : State), s.pllUsable = true → 4 ≤ p.toNat →
    exec (.pllSetpwr p) s = .next { s with
      rsplog := s.rsplog ++ [⟨.outOfRange, rspWord .pll .ok s.pll.rfOn s.pll.power s.pll.freq s.pll.step⟩] }

/-- PLL.TOGGLE: 43 R158. -/
def Obligations.PllToggleInvertsRfOnAndUpdates : Prop :=
  (∀ w : Cmd, w &&& 0xFC0000000000000000#72 = 0x5C0000000000000000#72 → decode w = .ok .pllToggle) ∧
  ∀ s : State, s.pllUsable = true →
    exec .pllToggle s = .next { s with
      pll := { s.pll with rfOn := !s.pll.rfOn }
      txlog := s.txlog ++ pllTransmit (pllEncode s.cfg s.pll.freq (!s.pll.rfOn) s.pll.power)
      rsplog := s.rsplog ++ [⟨.accepted, rspWord .pll .ok (!s.pll.rfOn) s.pll.power s.pll.freq s.pll.step⟩] }

/-! ## The pure functions -/

/-- 00 R13: `round_hu(q) = floor(q + 1/2)` for every rational `q ≥ 0`. -/
def Obligations.RoundingIsFloorOfHalfMore : Prop :=
  ∀ n d : Nat, 0 < d → ((roundHu n d : Nat) : Int) = ⌊(n : ℚ) / (d : ℚ) + 1 / 2⌋

/-- 40 R90: the tuning word is the rounded exact rational `f * DDS_SCALE / DDS_REF`, modulo 2^32. -/
def Obligations.TuningWordIsTheRoundedRatio : Prop :=
  ∀ (c : Cfg) (f : Hz), c.RefsPositive →
    ddsTuningWord c f =
      BitVec.ofInt 32 ⌊(f.toNat : ℚ) * (c.ddsScale : ℚ) / ((c.ddsRefNum : ℚ) / (c.ddsRefDen : ℚ)) + 1 / 2⌋

/-- 40 R92: the increment is reduced modulo 2^32 and nothing else; it needs no reduction exactly when `q < 2^32 − 1/2`, for a
scale of 2^32 exactly when `f < DDS_REF × (1 − 2^−33)`, so never inside the domain when `DDS_REF > 40 000 000.005`. The bound
is marked derived in R92. -/
def Obligations.TuningWordWrapsModulo : Prop :=
  ∀ (c : Cfg) (f : Hz), c.RefsPositive →
    let ref : ℚ := (c.ddsRefNum : ℚ) / (c.ddsRefDen : ℚ)
    (ddsTuningWord c f).toNat = ddsIncrement c f.toNat % 2 ^ 32 ∧
    (ddsIncrement c f.toNat < 2 ^ 32 ↔ (f.toNat : ℚ) * (c.ddsScale : ℚ) / ref < 2 ^ 32 - 1 / 2) ∧
    (c.ddsScale = 2 ^ 32 → (ddsIncrement c f.toNat < 2 ^ 32 ↔ (f.toNat : ℚ) < ref * (1 - 1 / 2 ^ 33))) ∧
    (c.ddsScale = 2 ^ 32 → f.toNat ≤ 40000000 → 40000000005 / 1000 < ref → ddsIncrement c f.toNat < 2 ^ 32)

/-- 40 R99 (a), (b): before the reduction the increment is monotone in the frequency, and within 1/2 of the exact ratio; (c)
for a scale of 2^32 and an integral reference R, `t × R / 2^32` is within `R / 2^33` Hz of the frequency. -/
def Obligations.TuningIncrementIsMonotoneAndClose : Prop :=
  ∀ (c : Cfg), c.RefsPositive →
    (∀ f g : Nat, f ≤ g → ddsIncrement c f ≤ ddsIncrement c g) ∧
    (∀ f : Nat,
      |(ddsIncrement c f : ℚ) - (f : ℚ) * (c.ddsScale : ℚ) / ((c.ddsRefNum : ℚ) / (c.ddsRefDen : ℚ))| ≤ 1 / 2) ∧
    (c.ddsScale = 2 ^ 32 → c.ddsRefDen = 1 → ∀ f : Nat,
      |(ddsIncrement c f : ℚ) * (c.ddsRefNum : ℚ) / 2 ^ 32 - (f : ℚ)| ≤ (c.ddsRefNum : ℚ) / 2 ^ 33)

/-- 40 R93: the tuning word of 0 is 0 for every configuration, and its frame is the all-zero one. -/
def Obligations.ZeroFrequencyIsTheZeroFrame : Prop :=
  ∀ c : Cfg, ddsTuningWord c 0#64 = 0#32 ∧ ddsFrame (ddsTuningWord c 0#64) = .ddsFrame 0x00#8 0x00#8 0x00#8 0x00#8 0x00#8

/-- 40 R95, 20 R41: the frame is the word's bytes, least significant first, then the control byte 0; the four bytes are the
whole word. -/
def Obligations.FrameIsLeastSignificantByteFirst : Prop :=
  ∀ w : Word32,
    ddsFrame w =
      .ddsFrame (w.extractLsb' 0 8) (w.extractLsb' 8 8) (w.extractLsb' 16 8) (w.extractLsb' 24 8) 0x00#8 ∧
    w.extractLsb' 24 8 ++ w.extractLsb' 16 8 ++ w.extractLsb' 8 8 ++ w.extractLsb' 0 8 = w

/-- 41 R101, R102: the divider select is the least index whose threshold the frequency reaches; as a table, with the boundaries
inclusive on the higher-frequency side; 7 is never produced. -/
def Obligations.DividerSelectIsTheLeastIndex : Prop :=
  ∀ f : Nat,
    IsLeast {i : Nat | ∃ t,
      [2200000000, 1100000000, 550000000, 275000000, 137500000, 68750000, 0][i]? = some t ∧ t ≤ f} (pllRfDivSel f) ∧
    (pllRfDivSel f = 0 ↔ 2200000000 ≤ f) ∧
    (pllRfDivSel f = 1 ↔ 1100000000 ≤ f ∧ f < 2200000000) ∧
    (pllRfDivSel f = 2 ↔ 550000000 ≤ f ∧ f < 1100000000) ∧
    (pllRfDivSel f = 3 ↔ 275000000 ≤ f ∧ f < 550000000) ∧
    (pllRfDivSel f = 4 ↔ 137500000 ≤ f ∧ f < 275000000) ∧
    (pllRfDivSel f = 5 ↔ 68750000 ≤ f ∧ f < 137500000) ∧
    (pllRfDivSel f = 6 ↔ f < 68750000) ∧
    pllRfDivSel f ≠ 7

/-- 41 R103: `vco = f × 2^d` over the integers, between 2 200 000 000 and 4 400 000 000 for every frequency of the domain (the
range is marked derived in R103). -/
def Obligations.VcoStaysInItsBand : Prop :=
  ∀ f : Nat,
    pllVco f = f * 2 ^ pllRfDivSel f ∧
    (35000000 ≤ f → f ≤ 4400000000 → 2200000000 ≤ pllVco f ∧ pllVco f ≤ 4400000000) ∧
    (35000000 ≤ f → f < 68750000 → 2240000000 ≤ pllVco f ∧ pllVco f < 4400000000)

/-- 41 R105: INT is the floor of the exact ratio, and in the domain lies between the floors of the band's ends (marked derived
in R105). -/
def Obligations.IntegerDividerIsTheFloor : Prop :=
  ∀ (c : Cfg), c.RefsPositive →
    (∀ vco : Nat, ((pllInt c vco : Nat) : Int) = ⌊(vco : ℚ) / (c.pllRefHz : ℚ)⌋) ∧
    ∀ f : Nat, 35000000 ≤ f → f ≤ 4400000000 →
      2200000000 / c.pllRefHz ≤ pllInt c (pllVco f) ∧ pllInt c (pllVco f) ≤ 4400000000 / c.pllRefHz

/-- 41 R107: FRAC is `round((vco / ref − INT) × 4095)`, exact, ties up, and at most 4095. -/
def Obligations.FractionIsTheRoundedRemainder : Prop :=
  ∀ (c : Cfg) (vco : Nat), c.RefsPositive →
    ((pllFrac c vco : Nat) : Int) = ⌊((vco : ℚ) / (c.pllRefHz : ℚ) - (pllInt c vco : ℚ)) * 4095 + 1 / 2⌋ ∧
    pllFrac c vco ≤ 4095

/-- 41 R108: FRAC equals MOD exactly when the fractional part of `vco / ref` is at least 1 − 1/8190; then INT is still the
floor and 4095 is packed as it is. It happens inside the domain: at 68 749 999 Hz with a reference of 8 000 000 Hz. -/
def Obligations.FractionCanEqualTheModulus : Prop :=
  ∀ (c : Cfg) (f : Hz) (e : Bool) (p : BitVec 2), c.RefsPositive →
    let vco := pllVco f.toNat
    (pllFrac c vco = 4095 ↔ Int.fract ((vco : ℚ) / (c.pllRefHz : ℚ)) ≥ 1 - 1 / 8190) ∧
    (pllFrac c vco = 4095 →
      (pllEncode c f e p).w0.extractLsb' 3 12 = 4095#12 ∧
      (pllEncode c f e p).w0.extractLsb' 15 17 = BitVec.ofNat 17 (vco / c.pllRefHz)) ∧
    (c.pllRefHz = 8000000 → pllFrac c (pllVco 68749999) = 4095 ∧ pllInt c (pllVco 68749999) = 549)

/-- 41 R109, 30 R70: word 0 is INT from bit 15 up (its bits from 2^17 up are lost), FRAC in bits 14 to 3, address 0; nothing is
lost in the domain when `PLL_REF_HZ ≥ 33 570`. -/
def Obligations.WordZeroFields : Prop :=
  ∀ (c : Cfg) (f : Hz) (e : Bool) (p : BitVec 2), c.RefsPositive →
    let vco := pllVco f.toNat
    let w := (pllEncode c f e p).w0
    w.extractLsb' 0 3 = 0#3 ∧ (w.extractLsb' 3 12).toNat = pllFrac c vco ∧
    (w.extractLsb' 15 17).toNat = pllInt c vco % 2 ^ 17 ∧
    (35000000 ≤ f.toNat → f.toNat ≤ 4400000000 → 33570 ≤ c.pllRefHz → (w.extractLsb' 15 17).toNat = pllInt c vco)

/-- 41 R110, 30 R71, 41 R104: word 1 bit by bit: the prescaler bit is set exactly when `vco ≥ 3 600 000 000`, MOD is 4095, the
address is 1, every other bit is the fixed constant's. -/
def Obligations.WordOneFields : Prop :=
  ∀ (c : Cfg) (f : Hz) (e : Bool) (p : BitVec 2) (b : Nat), c.WellFormed → b < 32 →
    (pllEncode c f e p).w1.getLsbD b =
      if b = c.pllPrescBit then decide (3600000000 ≤ pllVco f.toNat)
      else if c.pllModLsb ≤ b ∧ b ≤ c.pllModLsb + 11 then true
      else if b < 3 then (1#32).getLsbD b
      else c.pllR1Fixed.getLsbD b

/-- 41 R113, 30 R74: word 4 bit by bit: the divider select, the RF-enable bit, the power index, address 4, and the fixed
constant's bits elsewhere. -/
def Obligations.WordFourFields : Prop :=
  ∀ (c : Cfg) (f : Hz) (e : Bool) (p : BitVec 2) (b : Nat), c.WellFormed → b < 32 →
    (pllEncode c f e p).w4.getLsbD b =
      if c.pllRfdivLsb ≤ b ∧ b ≤ c.pllRfdivLsb + 2 then (pllRfDivSel f.toNat).testBit (b - c.pllRfdivLsb)
      else if b = c.pllRfenBit then e
      else if c.pllPwrLsb ≤ b ∧ b ≤ c.pllPwrLsb + 1 then p.getLsbD (b - c.pllPwrLsb)
      else if b < 3 then (4#32).getLsbD b
      else c.pllR4Fixed.getLsbD b

/-- 41 R111, R112, R114 and 30 R72, R73, R75: words 2, 3 and 5 are their constants with the address in the low three bits, the
same for every input. -/
def Obligations.FixedWordsAreConstants : Prop :=
  ∀ (c : Cfg) (f : Hz) (e : Bool) (p : BitVec 2), c.WellFormed →
    let ws := pllEncode c f e p
    (ws.w2 = c.pllR2Fixed ||| 2#32 ∧ ws.w2.extractLsb' 3 29 = c.pllR2Fixed.extractLsb' 3 29 ∧ ws.w2.extractLsb' 0 3 = 2#3) ∧
    (ws.w3 = c.pllR3Fixed ||| 3#32 ∧ ws.w3.extractLsb' 3 29 = c.pllR3Fixed.extractLsb' 3 29 ∧ ws.w3.extractLsb' 0 3 = 3#3) ∧
    (ws.w5 = c.pllR5Fixed ||| 5#32 ∧ ws.w5.extractLsb' 3 29 = c.pllR5Fixed.extractLsb' 3 29 ∧ ws.w5.extractLsb' 0 3 = 5#3)

/-- 41 R115: `W[i] & 0b111 == i` for every input and every well-formed configuration; R115 marks its argument derived. -/
def Obligations.AddressFieldIsTheIndex : Prop :=
  ∀ (c : Cfg) (f : Hz) (e : Bool) (p : BitVec 2) (i : Fin 6), c.WellFormed →
    (pllEncode c f e p).word i &&& 0b111#32 = BitVec.ofNat 32 i.val

/-- 41 R116, 20 R42, R43: word 5 first, word 0 last, each most significant byte first and followed by a settle event. -/
def Obligations.TransmissionIsTwelveEvents : Prop :=
  ∀ ws : PllWords,
    pllTransmit ws =
      ([5, 4, 3, 2, 1, 0] : List (Fin 6)).flatMap fun i =>
        [.pllWord i ((ws.word i).extractLsb' 24 8) ((ws.word i).extractLsb' 16 8) ((ws.word i).extractLsb' 8 8)
          ((ws.word i).extractLsb' 0 8), .pllSettle]

/-! ## Reset, invariants and whole-machine rules -/

/-- 10 R31: after reset every register has the value its parameter gives it, the straps are sampled, and nothing has been
transmitted; and the constraints on the parameters hold of every configuration the model accepts. (`dirty` is no register, 10
R30.) -/
def Obligations.ResetTakesTheParameters : Prop :=
  ∀ c : Cfg,
    let s := State.ofCfg c
    s.dds.freq = c.ddsResetFreq ∧ s.dds.step = c.ddsResetStep ∧ s.dds.en = c.ddsResetEn ∧
    s.pll.freq = c.pllResetFreq ∧ s.pll.step = c.pllResetStep ∧ s.pll.power = c.pllResetPower ∧
    s.pll.rfOn = c.pllResetRfon ∧ s.txlog = [] ∧ s.ddsUsable = c.ddsUsable ∧ s.pllUsable = c.pllUsable ∧
    (c.WellFormed → c.ddsResetFreq.toNat ≤ 40000000 ∧ 35000000 ≤ c.pllResetFreq.toNat ∧ c.pllResetFreq.toNat ≤ 4400000000 ∧
      c.pllResetStep.toNat ∈ [10, 100, 1000, 10000, 100000, 1000000, 10000000])

/-- The state the model resets to satisfies every invariant stated below; its parameters are the model's choice (log 3, 4, 5).
-/
def Obligations.ResetStateIsSafe : Prop :=
  State.reset.cfg.WellFormed ∧ RegsInBounds State.reset ∧ StrapsAsBuilt State.reset ∧ DdsChipAgrees State.reset ∧
  PllChipAgrees State.reset ∧ LogOfWholeTransmissions State.reset.txlog

/-- 10 R22, R23: the registers are in their bounds after reset and after every command, for every well-formed configuration;
the DDS step has no bound, every value can be in it. -/
def Obligations.EveryStepKeepsRegistersInBounds : Prop :=
  (∀ c : Cfg, c.WellFormed → RegsInBounds (State.ofCfg c)) ∧
  (∀ s t : State, RegsInBounds s → step s = .next t → RegsInBounds t) ∧
  ∀ (s : State) (d : Hz), s.ddsUsable = true → ∃ t, exec (.ddsSetstep d) s = .next t ∧ t.dds.step = d

/-- 10 R26, R27: no command writes the configuration or a strap. -/
def Obligations.EveryStepKeepsConfigurationAndStraps : Prop :=
  (∀ c : Cfg, StrapsAsBuilt (State.ofCfg c)) ∧
  ∀ s t : State, step s = .next t →
    t.cfg = s.cfg ∧ t.ddsUsable = s.ddsUsable ∧ t.pllUsable = s.pllUsable ∧ (StrapsAsBuilt s → StrapsAsBuilt t)

/-- 42 R137: the last DDS frame sent, if any, is the stored frequency's while Enabled and the zero frame while Disabled (marked
derived in R137). -/
def Obligations.EveryStepKeepsTheDdsChipInAgreement : Prop :=
  (∀ c : Cfg, ddsStream (State.ofCfg c).txlog = []) ∧
  ∀ s t : State, DdsChipAgrees s → step s = .next t → DdsChipAgrees t

/-- 43 R159: the last twelve PLL events, if any, are the transmission of the current registers; after reset there are none
(marked derived in R159). -/
def Obligations.EveryStepKeepsThePllChipInAgreement : Prop :=
  (∀ c : Cfg, pllStream (State.ofCfg c).txlog = []) ∧
  ∀ s t : State, PllChipAgrees s → step s = .next t → PllChipAgrees t

/-- 20 R46, R48: the log stays a sequence of whole transmissions whose PLL words carry their own index. -/
def Obligations.EveryStepKeepsTransmissionsWhole : Prop :=
  ∀ s t : State, LogOfWholeTransmissions s.txlog → step s = .next t → LogOfWholeTransmissions t.txlog

/-- 20 R50: the log only grows, and the host's words are taken in the order it presents them. The model's choices: the list of
responses, which only grows too (log 7), and the wait that changes nothing while no word is presented (log 1). -/
def Obligations.LogsOnlyGrow : Prop :=
  ∀ s t : State, step s = .next t →
    s.txlog <+: t.txlog ∧ s.rsplog <+: t.rsplog ∧ (s.host = [] ∧ t = s ∨ ∃ w, s.host = w :: t.host)

/-- 10 R29: the transmit log is write-only: what is in it changes nothing a step does, and neither do the responses given (the
response list is the model's own field, log 7). -/
def Obligations.LogsAreWriteOnly : Prop :=
  ∀ (s t : State) (log : List TxEvent) (rsps : List Response),
    step { s with txlog := [], rsplog := [] } = .next t →
    step { s with txlog := log, rsplog := rsps } = .next { t with txlog := log ++ t.txlog, rsplog := rsps ++ t.rsplog }

/-- 10 R33: the units share no state: a DDS command neither writes nor reads a PLL register nor appends a PLL event, and the
reverse (marked derived in R33). -/
def Obligations.UnitsAreIsolated : Prop :=
  (∀ (i : Instr) (s t : State), i.unit = .dds → exec i s = .next t →
    t.pll = s.pll ∧ pllStream t.txlog = pllStream s.txlog ∧
    ∀ p : PllRegs, exec i { s with pll := p } = .next { t with pll := p }) ∧
  ∀ (i : Instr) (s t : State), i.unit = .pll → exec i s = .next t →
    t.dds = s.dds ∧ ddsStream t.txlog = ddsStream s.txlog ∧
    ∀ d : DdsRegs, exec i { s with dds := d } = .next { t with dds := d }

/-- 10 R25: `DDS.en` is written by DDS.EN and DDS.DIS alone, `PLL.rf_on` by PLL.EN, PLL.DIS and PLL.TOGGLE alone (marked
derived in R25). -/
def Obligations.FlagsAreWrittenByTheirCommandsAlone : Prop :=
  ∀ (i : Instr) (s t : State), exec i s = .next t → usable i.unit s = true →
    (t.dds.en = match i with
      | .ddsEn => true
      | .ddsDis => false
      | _ => s.dds.en) ∧
    (t.pll.rfOn = match i with
      | .pllEn => true
      | .pllDis => false
      | .pllToggle => !s.pll.rfOn
      | _ => s.pll.rfOn)

/-- 20 R40, R47: which commands reach which stream, and with what: at most one frame, or all twelve PLL events of the registers
as the command leaves them. -/
def Obligations.StreamsReachedByEachCommand : Prop :=
  ∀ (i : Instr) (s t : State) (r : Response), exec i s = .next t → t.rsplog = s.rsplog ++ [r] →
    t.txlog = s.txlog ++
      if r.cls = .accepted then
        match i with
        | .ddsSetf _ => if s.dds.en then [ddsFrame (ddsTuningWord s.cfg t.dds.freq)] else []
        | .ddsUp => if s.dds.en then [ddsFrame (ddsTuningWord s.cfg t.dds.freq)] else []
        | .ddsDown => if s.dds.en then [ddsFrame (ddsTuningWord s.cfg t.dds.freq)] else []
        | .ddsEn => [ddsFrame (ddsTuningWord s.cfg t.dds.freq)]
        | .ddsDis => [ddsFrame 0#32]
        | .ddsStatus => []
        | .ddsSetstep _ => []
        | .pllStatus => []
        | .pllSetstep _ => []
        | _ => currentPllTransmission t
      else []
end

