-- ==== Sys2Proof/Laws/Arith.lean ====
section
/-! SUPPORT. Small laws of the pure functions (spec 00 R13; 40; 41), for the proofs about them. -/

namespace Sys2Proof.Machine

/-- `roundHu n d` is the nearest integer, ties upward: the characterisation every bound on it follows from (R13). -/
theorem roundHu_bounds (n : Nat) {d : Nat} (h : 0 < d) :
    2 * d * roundHu n d ≤ 2 * n + d ∧ 2 * n + d < 2 * d * roundHu n d + 2 * d := by
  have h2 : 0 < 2 * d := by omega
  unfold roundHu
  have := Nat.div_add_mod (2 * n + d) (2 * d)
  have := Nat.mod_lt (2 * n + d) h2
  omega

/-- The divider select as a chain of comparisons (R101's table). -/
theorem pllRfDivSel_eq (f : Nat) :
    pllRfDivSel f =
      if 2200000000 ≤ f then 0 else if 1100000000 ≤ f then 1 else if 550000000 ≤ f then 2 else if 275000000 ≤ f then 3
      else if 137500000 ≤ f then 4 else if 68750000 ≤ f then 5 else 6 := by
  simp only [pllRfDivSel, Config.pllThresh, List.findIdx_cons, List.findIdx_nil, Nat.zero_le, decide_true, cond_true,
    Bool.cond_decide]
  split_ifs <;> omega

theorem pllRfDivSel_le (f : Nat) : pllRfDivSel f ≤ 6 := by
  rw [pllRfDivSel_eq]
  split_ifs <;> omega

/-- FRAC fits its field (R107). -/
theorem pllFrac_le (c : Cfg) (vco : Nat) (h : 0 < c.pllRefHz) : pllFrac c vco ≤ 4095 := by
  have hr := Nat.mod_lt vco h
  obtain ⟨h1, -⟩ := roundHu_bounds (vco % c.pllRefHz * Config.pllMod) h
  change roundHu _ _ ≤ 4095
  by_contra hlt
  have h3 : 2 * c.pllRefHz * 4096 ≤ 2 * c.pllRefHz * roundHu (vco % c.pllRefHz * Config.pllMod) c.pllRefHz :=
    Nat.mul_le_mul_left _ (by omega)
  unfold Config.pllMod at *
  omega

/-- The bits of a field's mask. -/
theorem getLsbD_fieldMask (lsb width b : Nat) (h : b < 32) :
    (fieldMask lsb width).getLsbD b = decide (lsb ≤ b ∧ b < lsb + width) := by
  rcases Nat.lt_or_ge b lsb with hb | hb
  · simp [fieldMask, BitVec.getLsbD_shiftLeft, hb, Nat.not_le.mpr hb]
  · have : b - lsb < 32 := by omega
    simp only [fieldMask, BitVec.getLsbD_shiftLeft, BitVec.getLsbD_ofNat, Nat.testBit_two_pow_sub_one, h, this,
      Nat.not_lt.mpr hb, hb, decide_true, decide_false, Bool.not_false, Bool.true_and, true_and]
    exact decide_eq_decide.mpr (by omega)

/-- A word that is 0 on a mask has none of the mask's bits. -/
theorem getLsbD_of_and_eq_zero {x m : Word32} (h : x &&& m = 0#32) (b : Nat) (hm : m.getLsbD b = true) :
    x.getLsbD b = false := by
  have := congrArg (fun v => v.getLsbD b) h
  simpa [hm] using this

/-- The bits of a small number placed at a field. -/
theorem getLsbD_placed (x lsb n b : Nat) (hx : x < 2 ^ n) (hb : b < 32) :
    (BitVec.ofNat 32 x <<< lsb).getLsbD b = (decide (lsb ≤ b ∧ b < lsb + n) && x.testBit (b - lsb)) := by
  simp only [BitVec.getLsbD_shiftLeft, BitVec.getLsbD_ofNat, hb, decide_true, Bool.true_and]
  by_cases h : b < lsb
  · simp [h]
  · have h32 : b - lsb < 32 := by omega
    simp only [h, decide_false, h32, decide_true, Bool.not_false, Bool.true_and]
    by_cases h2 : b < lsb + n
    · have : lsb ≤ b := by omega
      simp [h2, this]
    · have : x.testBit (b - lsb) = false :=
        Nat.testBit_lt_two_pow (lt_of_lt_of_le hx (Nat.pow_le_pow_right (by omega) (by omega)))
      simp [this]

/-- The three variable fields of word 4, and its constant bits (R113). -/
theorem getLsbD_w4 {c : Cfg} (f : Hz) (e : Bool) (p : BitVec 2) {b : Nat} (hb : b < 32) :
    (pllEncode c f e p).w4.getLsbD b =
      (c.pllR4Fixed.getLsbD b ||
        (decide (c.pllRfdivLsb ≤ b ∧ b < c.pllRfdivLsb + 3) && (pllRfDivSel f.toNat).testBit (b - c.pllRfdivLsb)) ||
        (decide (c.pllRfenBit ≤ b ∧ b < c.pllRfenBit + 1) && e.toNat.testBit (b - c.pllRfenBit)) ||
        (decide (c.pllPwrLsb ≤ b ∧ b < c.pllPwrLsb + 2) && p.toNat.testBit (b - c.pllPwrLsb)) || (4#32).getLsbD b) := by
  have hw : (pllEncode c f e p).w4 = c.pllR4Fixed ||| (BitVec.ofNat 32 (pllRfDivSel f.toNat) <<< c.pllRfdivLsb) |||
    ((BitVec.ofBool e).setWidth 32 <<< c.pllRfenBit) ||| (p.setWidth 32 <<< c.pllPwrLsb) ||| 4#32 := rfl
  have he : (BitVec.ofBool e).setWidth 32 = BitVec.ofNat 32 e.toNat := by cases e <;> rfl
  have hp : p.setWidth 32 = BitVec.ofNat 32 p.toNat := BitVec.eq_of_toNat_eq (by simp)
  have hd := pllRfDivSel_le f.toNat
  have h8 : pllRfDivSel f.toNat < 2 ^ 3 := by omega
  rw [hw, he, hp]
  simp only [BitVec.getLsbD_or, getLsbD_placed (pllRfDivSel f.toNat) c.pllRfdivLsb 3 b h8 hb,
    getLsbD_placed e.toNat c.pllRfenBit 1 b (by cases e <;> decide) hb, getLsbD_placed p.toNat c.pllPwrLsb 2 b p.isLt hb]

end Sys2Proof.Machine
end

