-- ==== Sys2Proof/Laws/Decode.lean ====
section
/-! SUPPORT. The fields of a packed command word, and the decoder on it (spec 30 R60, R65). -/

namespace Sys2Proof

theorem cmdArg_packCmd (u : UnitSel) (op : BitVec 4) (p : Bool) (a : Hz) : cmdArg (packCmd u op p a) = a := by
  apply BitVec.eq_of_getLsbD_eq
  intro i hi
  simp only [cmdArg, packCmd, BitVec.getLsbD_extractLsb', BitVec.getLsbD_append, Nat.zero_add, hi, if_true, decide_true,
    Bool.true_and]

theorem cmdArgp_packCmd (u : UnitSel) (op : BitVec 4) (p : Bool) (a : Hz) : cmdArgp (packCmd u op p a) = p := by
  have h : cmdArgp (packCmd u op p a) = (BitVec.ofBool p).getLsbD 0 := by
    simp only [cmdArgp, packCmd, BitVec.getLsbD_append]
    rfl
  rw [h]
  cases p <;> rfl

theorem cmdOp_packCmd (u : UnitSel) (op : BitVec 4) (p : Bool) (a : Hz) : cmdOp (packCmd u op p a) = op := by
  apply BitVec.eq_of_getLsbD_eq
  intro i hi
  have h1 : ¬ (66 + i < 64) := by omega
  have h2 : ¬ (66 + i - 64 < 1) := by omega
  have h3 : ¬ (66 + i - 64 - 1 < 1) := by omega
  have h4 : 66 + i - 64 - 1 - 1 = i := by omega
  simp only [cmdOp, packCmd, BitVec.getLsbD_extractLsb', BitVec.getLsbD_append, h1, h2, h3, h4, hi, if_false, if_true,
    decide_true, Bool.true_and]

theorem cmdUnit_packCmd (u : UnitSel) (op : BitVec 4) (p : Bool) (a : Hz) : cmdUnit (packCmd u op p a) = u.code := by
  apply BitVec.eq_of_getLsbD_eq
  intro i hi
  have h1 : ¬ (70 + i < 64) := by omega
  have h2 : ¬ (70 + i - 64 < 1) := by omega
  have h3 : ¬ (70 + i - 64 - 1 < 1) := by omega
  have h4 : ¬ (70 + i - 64 - 1 - 1 < 4) := by omega
  have h5 : 70 + i - 64 - 1 - 1 - 4 = i := by omega
  simp only [cmdUnit, packCmd, BitVec.getLsbD_extractLsb', BitVec.getLsbD_append, h1, h2, h3, h4, h5, hi, if_false,
    decide_true, Bool.true_and]

/-- The decoder on a packed word of the DDS unit. -/
theorem decode_packCmd_dds (op : BitVec 4) (p : Bool) (a : Hz) : decode (packCmd .dds op p a) = decodeDds op p a := by
  simp only [decode, cmdUnit_packCmd, cmdOp_packCmd, cmdArgp_packCmd, cmdArg_packCmd]
  rfl

/-- The decoder on a packed word of the PLL unit. -/
theorem decode_packCmd_pll (op : BitVec 4) (p : Bool) (a : Hz) : decode (packCmd .pll op p a) = decodePll op p a := by
  simp only [decode, cmdUnit_packCmd, cmdOp_packCmd, cmdArgp_packCmd, cmdArg_packCmd]
  rfl

/-- A word is determined by its fields and the reserved bit. -/
theorem cmd_ext {v w : Cmd} (hu : cmdUnit v = cmdUnit w) (ho : cmdOp v = cmdOp w) (hp : cmdArgp v = cmdArgp w)
    (hr : v.getLsbD 64 = w.getLsbD 64) (ha : cmdArg v = cmdArg w) : v = w := by
  apply BitVec.eq_of_getLsbD_eq
  intro i hi
  rcases Nat.lt_or_ge i 64 with h | h
  · simpa [cmdArg, BitVec.getLsbD_extractLsb', h] using congrArg (BitVec.getLsbD · i) ha
  rcases Nat.lt_or_ge i 66 with h' | h'
  · obtain rfl | rfl : i = 64 ∨ i = 65 := by omega
    · exact hr
    · exact hp
  rcases Nat.lt_or_ge i 70 with h'' | h''
  · have := congrArg (BitVec.getLsbD · (i - 66)) ho
    simpa [cmdOp, BitVec.getLsbD_extractLsb', show i - 66 < 4 by omega, show 66 + (i - 66) = i by omega] using this
  · have := congrArg (BitVec.getLsbD · (i - 70)) hu
    simpa [cmdUnit, BitVec.getLsbD_extractLsb', show i - 70 < 2 by omega, show 70 + (i - 70) = i by omega] using this

/-! ### Fields of a masked word -/

theorem cmdUnit_and (v w : Cmd) : cmdUnit (v &&& w) = cmdUnit v &&& cmdUnit w := by
  ext i hi
  simp [cmdUnit, BitVec.getElem_extractLsb']

theorem cmdOp_and (v w : Cmd) : cmdOp (v &&& w) = cmdOp v &&& cmdOp w := by
  ext i hi
  simp [cmdOp, BitVec.getElem_extractLsb']

theorem cmdArg_and (v w : Cmd) : cmdArg (v &&& w) = cmdArg v &&& cmdArg w := by
  ext i hi
  simp [cmdArg, BitVec.getElem_extractLsb']

theorem cmdArgp_and (v w : Cmd) : cmdArgp (v &&& w) = (cmdArgp v && cmdArgp w) := by
  simp [cmdArgp]

theorem reserved_packCmd (u : UnitSel) (op : BitVec 4) (p : Bool) (a : Hz) : (packCmd u op p a).getLsbD 64 = false := by
  simp only [packCmd, BitVec.getLsbD_append]
  rfl

/-- A packed word satisfies a row of the opcode table when its fields do, one by one. -/
theorem matches_packCmd {r : OpcodeRow} {u : UnitSel} {op : BitVec 4} {p : Bool} {a : Hz}
    (hu : u.code &&& cmdUnit r.mask = cmdUnit r.pattern) (ho : op &&& cmdOp r.mask = cmdOp r.pattern)
    (hp : (p && cmdArgp r.mask) = cmdArgp r.pattern) (hr : r.pattern.getLsbD 64 = false)
    (ha : a &&& cmdArg r.mask = cmdArg r.pattern) : r.Matches (packCmd u op p a) := by
  refine cmd_ext ?_ ?_ ?_ ?_ ?_
  · rw [cmdUnit_and, cmdUnit_packCmd, hu]
  · rw [cmdOp_and, cmdOp_packCmd, ho]
  · rw [cmdArgp_and, cmdArgp_packCmd, hp]
  · rw [BitVec.getLsbD_and, reserved_packCmd, hr, Bool.false_and]
  · rw [cmdArg_and, cmdArg_packCmd, ha]

/-! ### What each row of the opcode table tests, field by field (R62, R80) -/

/-- The `op` a command's row tests (R62). -/
def Instr.rowOp : Instr → BitVec 4
  | .ddsStatus => 0#4
  | .ddsSetf _ => 1#4
  | .ddsUp => 2#4
  | .ddsDown => 2#4
  | .ddsSetstep _ => 3#4
  | .ddsEn => 4#4
  | .ddsDis => 5#4
  | .pllStatus => 0#4
  | .pllSetf _ => 1#4
  | .pllUp => 2#4
  | .pllDown => 2#4
  | .pllSetstep _ => 3#4
  | .pllEn => 4#4
  | .pllDis => 5#4
  | .pllSetpwr _ => 6#4
  | .pllToggle => 7#4

/-- Whether a command's row tests `argp` = 1 (R63). -/
def Instr.rowNeedsArgp (i : Instr) : Bool := i.rowOp ∈ [1#4, 2#4, 3#4, 6#4]

/-- The `arg[0]` a command's row tests, if it tests it (R62, R64). -/
def Instr.rowDirection : Instr → Option Bool
  | .ddsUp => some true
  | .pllUp => some true
  | .ddsDown => some false
  | .pllDown => some false
  | _ => none

theorem and_three (u : BitVec 2) : u &&& 3#2 = u := by revert u; decide
theorem and_fifteen (op : BitVec 4) : op &&& 15#4 = op := by revert op; decide

theorem and_one (a : Hz) : a &&& 1#64 = if a.getLsbD 0 then 1#64 else 0#64 := by
  apply BitVec.eq_of_getLsbD_eq
  intro i hi
  cases h : a.getLsbD 0 <;> rcases i with _ | i <;> simp_all

/-- A word satisfies a row that leaves the reserved bit alone exactly when its fields do. -/
theorem matches_iff_masked_fields {r : OpcodeRow} {w : Cmd} (hm : r.mask.getLsbD 64 = false)
    (hp : r.pattern.getLsbD 64 = false) :
    r.Matches w ↔
      cmdUnit w &&& cmdUnit r.mask = cmdUnit r.pattern ∧ cmdOp w &&& cmdOp r.mask = cmdOp r.pattern ∧
      (cmdArgp w && cmdArgp r.mask) = cmdArgp r.pattern ∧ cmdArg w &&& cmdArg r.mask = cmdArg r.pattern := by
  constructor
  · rintro (h : w &&& r.mask = r.pattern)
    rw [← h]
    simp only [cmdUnit_and, cmdOp_and, cmdArgp_and, cmdArg_and, and_self]
  · rintro ⟨hu, ho, ha, hg⟩
    refine cmd_ext ?_ ?_ ?_ ?_ ?_
    · rw [cmdUnit_and, hu]
    · rw [cmdOp_and, ho]
    · rw [cmdArgp_and, ha]
    · rw [BitVec.getLsbD_and, hm, hp, Bool.and_false]
    · rw [cmdArg_and, hg]

/-- The fields of a row of the opcode table. -/
structure RowFields (r : OpcodeRow) (u : BitVec 2) (op : BitVec 4) (argp : Bool) (dir : Option Bool) : Prop where
  maskReserved : r.mask.getLsbD 64 = false
  patternReserved : r.pattern.getLsbD 64 = false
  maskUnit : cmdUnit r.mask = 3#2
  patternUnit : cmdUnit r.pattern = u
  maskOp : cmdOp r.mask = 15#4
  patternOp : cmdOp r.pattern = op
  maskArgp : cmdArgp r.mask = argp
  patternArgp : cmdArgp r.pattern = argp
  maskArg : cmdArg r.mask = if dir.isSome then 1#64 else 0#64
  patternArg : cmdArg r.pattern = if dir = some true then 1#64 else 0#64

theorem RowFields.matches_iff {r : OpcodeRow} {u : BitVec 2} {op : BitVec 4} {argp : Bool} {dir : Option Bool}
    (h : RowFields r u op argp dir) (w : Cmd) :
    r.Matches w ↔ cmdUnit w = u ∧ cmdOp w = op ∧ (argp = true → cmdArgp w = true) ∧
      ∀ d, dir = some d → (cmdArg w).getLsbD 0 = d := by
  have harg : cmdArg w &&& cmdArg r.mask = cmdArg r.pattern ↔ ∀ d, dir = some d → (cmdArg w).getLsbD 0 = d := by
    rw [h.maskArg, h.patternArg]
    rcases dir with _ | d
    · simp
    · simp only [Option.isSome_some, if_true, and_one]
      cases d <;> cases (cmdArg w).getLsbD 0 <;> simp
  have hargp : (cmdArgp w && cmdArgp r.mask) = cmdArgp r.pattern ↔ (argp = true → cmdArgp w = true) := by
    rw [h.maskArgp, h.patternArgp]
    cases argp <;> simp
  rw [matches_iff_masked_fields h.maskReserved h.patternReserved, harg, hargp, h.maskUnit, h.patternUnit, h.maskOp,
    h.patternOp, and_three, and_fifteen]

/-- What `RowFields` asks of a command's row, as one decidable question. -/
abbrev RowFieldsHold (i : Instr) : Prop :=
  ((opcodeRow i).mask.getLsbD 64 = false ∧ (opcodeRow i).pattern.getLsbD 64 = false) ∧
  (cmdUnit (opcodeRow i).mask = 3#2 ∧ cmdUnit (opcodeRow i).pattern = i.unit.code) ∧
  (cmdOp (opcodeRow i).mask = 15#4 ∧ cmdOp (opcodeRow i).pattern = i.rowOp) ∧
  (cmdArgp (opcodeRow i).mask = i.rowNeedsArgp ∧ cmdArgp (opcodeRow i).pattern = i.rowNeedsArgp) ∧
  cmdArg (opcodeRow i).mask = (if i.rowDirection.isSome then 1#64 else 0#64) ∧
  cmdArg (opcodeRow i).pattern = if i.rowDirection = some true then 1#64 else 0#64

/-- Each row of the opcode table, read as fields. The row does not depend on the operand, so operand 0 stands for all. -/
theorem rowFieldsHold (i : Instr) : RowFieldsHold i := by
  cases i with
  | ddsStatus => decide
  | ddsSetf _ => exact (by decide : RowFieldsHold (.ddsSetf 0#64))
  | ddsUp => decide
  | ddsDown => decide
  | ddsSetstep _ => exact (by decide : RowFieldsHold (.ddsSetstep 0#64))
  | ddsEn => decide
  | ddsDis => decide
  | pllStatus => decide
  | pllSetf _ => exact (by decide : RowFieldsHold (.pllSetf 0#64))
  | pllUp => decide
  | pllDown => decide
  | pllSetstep _ => exact (by decide : RowFieldsHold (.pllSetstep 0#64))
  | pllEn => decide
  | pllDis => decide
  | pllSetpwr _ => exact (by decide : RowFieldsHold (.pllSetpwr 0#64))
  | pllToggle => decide

theorem opcodeRow_fields (i : Instr) : RowFields (opcodeRow i) i.unit.code i.rowOp i.rowNeedsArgp i.rowDirection :=
  have ⟨⟨h1, h2⟩, ⟨h3, h4⟩, ⟨h5, h6⟩, ⟨h7, h8⟩, h9, h10⟩ := rowFieldsHold i
  ⟨h1, h2, h3, h4, h5, h6, h7, h8, h9, h10⟩

/-- A word satisfies a command's row exactly when its fields are the ones the row tests. -/
theorem opcodeRow_matches_iff (i : Instr) (w : Cmd) :
    (opcodeRow i).Matches w ↔ cmdUnit w = i.unit.code ∧ cmdOp w = i.rowOp ∧ (i.rowNeedsArgp = true → cmdArgp w = true) ∧
      ∀ d, i.rowDirection = some d → (cmdArg w).getLsbD 0 = d :=
  (opcodeRow_fields i).matches_iff w

end Sys2Proof
end

