-- ==== Sys2Proof/Laws/State.lean ====
section
/-! SUPPORT. One lemma per field of `State` and per named update: what the update leaves in the field. All hold by `rfl`. -/

namespace Sys2Proof.Machine

/-! ### `respond` -/

@[simp] theorem respond_dds (u : UnitSel) (cls : OutcomeClass) (s : State) : (respond u cls s).dds = s.dds := rfl
@[simp] theorem respond_pll (u : UnitSel) (cls : OutcomeClass) (s : State) : (respond u cls s).pll = s.pll := rfl
@[simp] theorem respond_ddsUsable (u : UnitSel) (cls : OutcomeClass) (s : State) : (respond u cls s).ddsUsable = s.ddsUsable := rfl
@[simp] theorem respond_pllUsable (u : UnitSel) (cls : OutcomeClass) (s : State) : (respond u cls s).pllUsable = s.pllUsable := rfl
@[simp] theorem respond_cfg (u : UnitSel) (cls : OutcomeClass) (s : State) : (respond u cls s).cfg = s.cfg := rfl
@[simp] theorem respond_txlog (u : UnitSel) (cls : OutcomeClass) (s : State) : (respond u cls s).txlog = s.txlog := rfl
@[simp] theorem respond_rsplog (u : UnitSel) (cls : OutcomeClass) (s : State) : (respond u cls s).rsplog = s.rsplog ++ [⟨cls, snapshot u cls.status s⟩] := rfl
@[simp] theorem respond_host (u : UnitSel) (cls : OutcomeClass) (s : State) : (respond u cls s).host = s.host := rfl

/-! ### `tx` -/

@[simp] theorem tx_dds (events : List TxEvent) (s : State) : (tx events s).dds = s.dds := rfl
@[simp] theorem tx_pll (events : List TxEvent) (s : State) : (tx events s).pll = s.pll := rfl
@[simp] theorem tx_ddsUsable (events : List TxEvent) (s : State) : (tx events s).ddsUsable = s.ddsUsable := rfl
@[simp] theorem tx_pllUsable (events : List TxEvent) (s : State) : (tx events s).pllUsable = s.pllUsable := rfl
@[simp] theorem tx_cfg (events : List TxEvent) (s : State) : (tx events s).cfg = s.cfg := rfl
@[simp] theorem tx_txlog (events : List TxEvent) (s : State) : (tx events s).txlog = s.txlog ++ events := rfl
@[simp] theorem tx_rsplog (events : List TxEvent) (s : State) : (tx events s).rsplog = s.rsplog := rfl
@[simp] theorem tx_host (events : List TxEvent) (s : State) : (tx events s).host = s.host := rfl

/-! ### `ddsTransmit` -/

@[simp] theorem ddsTransmit_dds (f : Hz) (s : State) : (ddsTransmit f s).dds = s.dds := rfl
@[simp] theorem ddsTransmit_pll (f : Hz) (s : State) : (ddsTransmit f s).pll = s.pll := rfl
@[simp] theorem ddsTransmit_ddsUsable (f : Hz) (s : State) : (ddsTransmit f s).ddsUsable = s.ddsUsable := rfl
@[simp] theorem ddsTransmit_pllUsable (f : Hz) (s : State) : (ddsTransmit f s).pllUsable = s.pllUsable := rfl
@[simp] theorem ddsTransmit_cfg (f : Hz) (s : State) : (ddsTransmit f s).cfg = s.cfg := rfl
@[simp] theorem ddsTransmit_txlog (f : Hz) (s : State) : (ddsTransmit f s).txlog = s.txlog ++ [ddsFrame (ddsTuningWord s.cfg f)] := rfl
@[simp] theorem ddsTransmit_rsplog (f : Hz) (s : State) : (ddsTransmit f s).rsplog = s.rsplog := rfl
@[simp] theorem ddsTransmit_host (f : Hz) (s : State) : (ddsTransmit f s).host = s.host := rfl

/-! ### `pllUpdate` -/

@[simp] theorem pllUpdate_dds (s : State) : (pllUpdate s).dds = s.dds := rfl
@[simp] theorem pllUpdate_pll (s : State) : (pllUpdate s).pll = s.pll := rfl
@[simp] theorem pllUpdate_ddsUsable (s : State) : (pllUpdate s).ddsUsable = s.ddsUsable := rfl
@[simp] theorem pllUpdate_pllUsable (s : State) : (pllUpdate s).pllUsable = s.pllUsable := rfl
@[simp] theorem pllUpdate_cfg (s : State) : (pllUpdate s).cfg = s.cfg := rfl
@[simp] theorem pllUpdate_txlog (s : State) : (pllUpdate s).txlog = s.txlog ++ currentPllTransmission s := rfl
@[simp] theorem pllUpdate_rsplog (s : State) : (pllUpdate s).rsplog = s.rsplog := rfl
@[simp] theorem pllUpdate_host (s : State) : (pllUpdate s).host = s.host := rfl

/-! ### `setDdsEn` -/

@[simp] theorem setDdsEn_dds (b : Bool) (s : State) : (setDdsEn b s).dds = { s.dds with en := b } := rfl
@[simp] theorem setDdsEn_pll (b : Bool) (s : State) : (setDdsEn b s).pll = s.pll := rfl
@[simp] theorem setDdsEn_ddsUsable (b : Bool) (s : State) : (setDdsEn b s).ddsUsable = s.ddsUsable := rfl
@[simp] theorem setDdsEn_pllUsable (b : Bool) (s : State) : (setDdsEn b s).pllUsable = s.pllUsable := rfl
@[simp] theorem setDdsEn_cfg (b : Bool) (s : State) : (setDdsEn b s).cfg = s.cfg := rfl
@[simp] theorem setDdsEn_txlog (b : Bool) (s : State) : (setDdsEn b s).txlog = s.txlog := rfl
@[simp] theorem setDdsEn_rsplog (b : Bool) (s : State) : (setDdsEn b s).rsplog = s.rsplog := rfl
@[simp] theorem setDdsEn_host (b : Bool) (s : State) : (setDdsEn b s).host = s.host := rfl

/-! ### `setPllRfOn` -/

@[simp] theorem setPllRfOn_dds (b : Bool) (s : State) : (setPllRfOn b s).dds = s.dds := rfl
@[simp] theorem setPllRfOn_pll (b : Bool) (s : State) : (setPllRfOn b s).pll = { s.pll with rfOn := b } := rfl
@[simp] theorem setPllRfOn_ddsUsable (b : Bool) (s : State) : (setPllRfOn b s).ddsUsable = s.ddsUsable := rfl
@[simp] theorem setPllRfOn_pllUsable (b : Bool) (s : State) : (setPllRfOn b s).pllUsable = s.pllUsable := rfl
@[simp] theorem setPllRfOn_cfg (b : Bool) (s : State) : (setPllRfOn b s).cfg = s.cfg := rfl
@[simp] theorem setPllRfOn_txlog (b : Bool) (s : State) : (setPllRfOn b s).txlog = s.txlog := rfl
@[simp] theorem setPllRfOn_rsplog (b : Bool) (s : State) : (setPllRfOn b s).rsplog = s.rsplog := rfl
@[simp] theorem setPllRfOn_host (b : Bool) (s : State) : (setPllRfOn b s).host = s.host := rfl

/-! ### `present` -/

@[simp] theorem present_dds (w : Cmd) (s : State) : (present w s).dds = s.dds := rfl
@[simp] theorem present_pll (w : Cmd) (s : State) : (present w s).pll = s.pll := rfl
@[simp] theorem present_ddsUsable (w : Cmd) (s : State) : (present w s).ddsUsable = s.ddsUsable := rfl
@[simp] theorem present_pllUsable (w : Cmd) (s : State) : (present w s).pllUsable = s.pllUsable := rfl
@[simp] theorem present_cfg (w : Cmd) (s : State) : (present w s).cfg = s.cfg := rfl
@[simp] theorem present_txlog (w : Cmd) (s : State) : (present w s).txlog = s.txlog := rfl
@[simp] theorem present_rsplog (w : Cmd) (s : State) : (present w s).rsplog = s.rsplog := rfl
@[simp] theorem present_host (w : Cmd) (s : State) : (present w s).host = w :: s.host := rfl

/-! ### Reset (10 R31) -/

@[simp] theorem ofCfg_dds (c : Cfg) : (State.ofCfg c).dds = ⟨c.ddsResetFreq, c.ddsResetStep, c.ddsResetEn⟩ := rfl
@[simp] theorem ofCfg_pll (c : Cfg) :
    (State.ofCfg c).pll = ⟨c.pllResetFreq, c.pllResetStep, c.pllResetPower, c.pllResetRfon⟩ := rfl
@[simp] theorem ofCfg_ddsUsable (c : Cfg) : (State.ofCfg c).ddsUsable = c.ddsUsable := rfl
@[simp] theorem ofCfg_pllUsable (c : Cfg) : (State.ofCfg c).pllUsable = c.pllUsable := rfl
@[simp] theorem ofCfg_cfg (c : Cfg) : (State.ofCfg c).cfg = c := rfl
@[simp] theorem ofCfg_txlog (c : Cfg) : (State.ofCfg c).txlog = [] := rfl
@[simp] theorem ofCfg_rsplog (c : Cfg) : (State.ofCfg c).rsplog = [] := rfl
@[simp] theorem ofCfg_host (c : Cfg) : (State.ofCfg c).host = [] := rfl

end Sys2Proof.Machine
end

