-- ==== Sys2Proof/Laws/Ops.lean ====
section
/-! SUPPORT. What the shared operations can do, said once: the command frame (`runCommand`), each command's rule, the router
and the step. Later proofs cite these and do not unfold the operations. -/

namespace Sys2Proof.Machine

/-! ### The frame around a command (44 R180) -/

theorem runCommand_of_usable {u : UnitSel} {s : State} (rule : State → OutcomeClass × State) (h : usable u s = true) :
    runCommand u rule s = .next (respond u (rule s).1 (rule s).2) := by
  simp [runCommand, h]

theorem runCommand_of_unusable {u : UnitSel} {s : State} (rule : State → OutcomeClass × State) (h : usable u s = false) :
    runCommand u rule s = .next (respond u .unavailable s) := by
  simp [runCommand, h]

/-- A command always ends in a next state: its rule's, or the unavailable unit's. -/
theorem runCommand_cases {u : UnitSel} {rule : State → OutcomeClass × State} {s t : State}
    (h : runCommand u rule s = .next t) :
    (usable u s = true ∧ t = respond u (rule s).1 (rule s).2) ∨ (usable u s = false ∧ t = respond u .unavailable s) := by
  cases hu : usable u s
  · rw [runCommand_of_unusable rule hu] at h
    exact .inr ⟨rfl, by cases h; rfl⟩
  · rw [runCommand_of_usable rule hu] at h
    exact .inl ⟨rfl, by cases h; rfl⟩

/-! ### The rule of each command, as `exec` runs it -/

/-- What `exec` hands to `runCommand` for a command. -/
def ruleOf : Instr → State → OutcomeClass × State
  | .ddsStatus => fun t => (.accepted, t)
  | .ddsSetf arg => fun t => if ddsFreqInRange arg then ddsStoreFreq arg t else ignored .outOfRange t
  | .ddsUp => fun t => ddsStoreFreq (ddsClampHigh (stepUp t.dds.freq t.dds.step)) t
  | .ddsDown => fun t => ddsStoreFreq (ddsClampLow (stepDown t.dds.freq t.dds.step)) t
  | .ddsSetstep arg => fun t => (.accepted, { t with dds := { t.dds with step := arg } })
  | .ddsEn => fun t => (.accepted, ddsTransmit t.dds.freq (setDdsEn true t))
  | .ddsDis => fun t => (.accepted, ddsTransmit 0#64 (setDdsEn false t))
  | .pllStatus => fun t => (.accepted, t)
  | .pllSetf arg => fun t => pllStoreFreq (arg.toNat : Int) t
  | .pllUp => fun t => pllStoreFreq (stepUp t.pll.freq t.pll.step) t
  | .pllDown => fun t => pllStoreFreq (stepDown t.pll.freq t.pll.step) t
  | .pllSetstep arg => fun t =>
      if pllStepInSet arg then (.accepted, { t with pll := { t.pll with step := arg } }) else ignored .outOfRange t
  | .pllEn => fun t => (.accepted, pllUpdate (setPllRfOn true t))
  | .pllDis => fun t => (.accepted, pllUpdate (setPllRfOn false t))
  | .pllSetpwr arg => fun t =>
      if pllPowerInRange arg then (.accepted, pllUpdate { t with pll := { t.pll with power := arg.setWidth 2 } })
      else ignored .outOfRange t
  | .pllToggle => fun t => (.accepted, pllUpdate (setPllRfOn (!t.pll.rfOn) t))

/-- Every command is its rule inside the one command frame. -/
theorem exec_eq_runCommand (i : Instr) (s : State) : exec i s = runCommand i.unit (ruleOf i) s := by
  cases i <;> rfl

/-- What a rule leaves alone, whichever command it is of. -/
structure RuleFrame (s t : State) : Prop where
  ddsUsable : t.ddsUsable = s.ddsUsable
  pllUsable : t.pllUsable = s.pllUsable
  cfg : t.cfg = s.cfg
  rsplog : t.rsplog = s.rsplog
  host : t.host = s.host

theorem ddsTransmitIfEnabled_eq (f : Hz) (s : State) :
    ddsTransmitIfEnabled f s = tx (if s.dds.en then [ddsFrame (ddsTuningWord s.cfg f)] else []) s := by
  unfold ddsTransmitIfEnabled
  split
  · rfl
  · simp [tx]

theorem ddsStoreFreq_eq (f : Hz) (s : State) :
    ddsStoreFreq f s =
      (.accepted, tx (if s.dds.en then [ddsFrame (ddsTuningWord s.cfg f)] else []) { s with dds := { s.dds with freq := f } }) := by
  rw [ddsStoreFreq, ddsTransmitIfEnabled_eq]

theorem pllStoreFreq_inRange {n : Int} (s : State) (h : pllFreqInRange n = true) :
    pllStoreFreq n s = (.accepted, pllUpdate { s with pll := { s.pll with freq := BitVec.ofInt 64 n } }) := by
  simp [pllStoreFreq, h]

theorem pllStoreFreq_outOfRange {n : Int} (s : State) (h : pllFreqInRange n = false) :
    pllStoreFreq n s = (.outOfRange, s) := by
  simp [pllStoreFreq, h, ignored]

/-- PLL.SETF, PLL.UP and PLL.DOWN: accepted and transmitted, or ignored. -/
theorem pllStoreFreq_cases (n : Int) (s : State) :
    (pllFreqInRange n = true ∧
      pllStoreFreq n s = (.accepted, pllUpdate { s with pll := { s.pll with freq := BitVec.ofInt 64 n } })) ∨
    (pllFreqInRange n = false ∧ pllStoreFreq n s = (.outOfRange, s)) := by
  cases h : pllFreqInRange n
  · exact .inr ⟨rfl, pllStoreFreq_outOfRange s h⟩
  · exact .inl ⟨rfl, pllStoreFreq_inRange s h⟩

/-- A rule writes its unit's registers and the log, and nothing else. -/
theorem ruleOf_frame (i : Instr) (s : State) : RuleFrame s (ruleOf i s).2 := by
  have hdds (f : Hz) : RuleFrame s (ddsStoreFreq f s).2 := by
    rw [ddsStoreFreq_eq]
    exact ⟨rfl, rfl, rfl, rfl, rfl⟩
  have hpll (n : Int) : RuleFrame s (pllStoreFreq n s).2 := by
    rcases pllStoreFreq_cases n s with ⟨-, h⟩ | ⟨-, h⟩ <;> rw [h] <;> exact ⟨rfl, rfl, rfl, rfl, rfl⟩
  cases i <;> simp only [ruleOf] <;> first
    | exact hdds _
    | exact hpll _
    | exact ⟨rfl, rfl, rfl, rfl, rfl⟩
    | (split <;> first | exact hdds _ | exact ⟨rfl, rfl, rfl, rfl, rfl⟩)

/-- A rule that does not accept its command leaves the state as it was (60 R207). -/
theorem ruleOf_ignored {i : Instr} {s : State} (h : (ruleOf i s).1 ≠ .accepted) : (ruleOf i s).2 = s := by
  have hdds (f : Hz) : (ddsStoreFreq f s).1 = .accepted := by rw [ddsStoreFreq_eq]
  have hpll (n : Int) : (pllStoreFreq n s).1 = .accepted ∨ (pllStoreFreq n s).2 = s := by
    rcases pllStoreFreq_cases n s with ⟨-, h⟩ | ⟨-, h⟩ <;> rw [h]
    · exact .inl rfl
    · exact .inr rfl
  cases i <;> simp only [ruleOf] at h ⊢ <;> first
    | exact absurd rfl h
    | exact absurd (hdds _) h
    | exact (hpll _).resolve_left h
    | (split at h <;> first | exact absurd rfl h | exact absurd (hdds _) h | simp_all [ignored])

/-- A DDS rule: the PLL registers stand, and what is appended is DDS frames (10 R33). -/
theorem ruleOf_dds {i : Instr} (s : State) (h : i.unit = .dds) :
    (ruleOf i s).2.pll = s.pll ∧ ∃ ws : List Word32, (ruleOf i s).2.txlog = s.txlog ++ ws.map ddsFrame := by
  have hdds (f : Hz) :
      (ddsStoreFreq f s).2.pll = s.pll ∧ ∃ ws : List Word32, (ddsStoreFreq f s).2.txlog = s.txlog ++ ws.map ddsFrame := by
    rw [ddsStoreFreq_eq]
    refine ⟨rfl, if s.dds.en then [ddsTuningWord s.cfg f] else [], ?_⟩
    cases s.dds.en <;> rfl
  cases i <;> simp only [ruleOf] <;> first
    | (cases h; done)
    | exact hdds _
    | exact ⟨trivial, [], (List.append_nil _).symm⟩
    | exact ⟨rfl, [ddsTuningWord s.cfg _], rfl⟩
    | (split <;> first | exact hdds _ | exact ⟨rfl, [], (List.append_nil _).symm⟩)

/-- A PLL rule: the DDS registers stand, and what is appended is nothing or the transmission of the registers it leaves
(10 R33; 43 R150). -/
theorem ruleOf_pll {i : Instr} (s : State) (h : i.unit = .pll) :
    (ruleOf i s).2.dds = s.dds ∧
    ((ruleOf i s).2.txlog = s.txlog ∨
      (ruleOf i s).2.txlog = s.txlog ++ currentPllTransmission (ruleOf i s).2) := by
  have hpll (n : Int) :
      (pllStoreFreq n s).2.dds = s.dds ∧
      ((pllStoreFreq n s).2.txlog = s.txlog ∨
        (pllStoreFreq n s).2.txlog = s.txlog ++ currentPllTransmission (pllStoreFreq n s).2) := by
    rcases pllStoreFreq_cases n s with ⟨-, h⟩ | ⟨-, h⟩ <;> rw [h]
    · exact ⟨rfl, .inr rfl⟩
    · exact ⟨rfl, .inl rfl⟩
  cases i <;> simp only [ruleOf] <;> first
    | (cases h; done)
    | exact hpll _
    | exact ⟨trivial, .inl trivial⟩
    | exact ⟨rfl, .inr rfl⟩
    | (split <;> first | exact ⟨rfl, .inr rfl⟩ | exact ⟨rfl, .inl rfl⟩)

/-! ### The router and the step -/

/-- Everything one presented word can lead to, if it is answered (44 R180). -/
theorem runWord_cases {w : Cmd} {s t : State} (h : runWord w s = .next t) :
    (∃ i, decode w = .ok i ∧ runCommand i.unit (ruleOf i) s = .next t) ∨
    (∃ u cls, (decode w = .error (.unknownOp u) ∧ cls = .unknownOp ∨ decode w = .error (.missingParam u) ∧ cls = .missingParam) ∧
      runCommand u (ignored cls) s = .next t) := by
  unfold runWord at h
  split at h
  · rename_i i hd
    exact .inl ⟨i, hd, by rw [← exec_eq_runCommand]; exact h⟩
  · rename_i u hd
    exact .inr ⟨u, .unknownOp, .inl ⟨hd, rfl⟩, h⟩
  · rename_i u hd
    exact .inr ⟨u, .missingParam, .inr ⟨hd, rfl⟩, h⟩
  · cases h

/-- Everything a step can do, if it answers a next state: wait, or run the host's next word. -/
theorem step_cases {s t : State} (h : step s = .next t) :
    s.cfg.WellFormed ∧
    (s.host = [] ∧ t = s ∨ ∃ w rest, s.host = w :: rest ∧ runWord w { s with host := rest } = .next t) := by
  unfold step at h
  split at h
  · rename_i hw
    refine ⟨hw, ?_⟩
    unfold serveHost at h
    split at h
    · exact .inl ⟨‹_›, by cases h; rfl⟩
    · exact .inr ⟨_, _, ‹_›, h⟩
  · cases h

/-! ### Commands and steps, put together -/

/-- A command's outcome on a usable unit. -/
theorem exec_of_usable {i : Instr} {s : State} (h : usable i.unit s = true) :
    exec i s = .next (respond i.unit (ruleOf i s).1 (ruleOf i s).2) := by
  rw [exec_eq_runCommand, runCommand_of_usable _ h]

theorem exec_of_ddsUsable {i : Instr} {s : State} (h : s.ddsUsable = true) (hi : i.unit = .dds) :
    exec i s = .next (respond .dds (ruleOf i s).1 (ruleOf i s).2) := by
  rw [exec_of_usable (by rw [hi]; exact h), hi]

theorem exec_of_pllUsable {i : Instr} {s : State} (h : s.pllUsable = true) (hi : i.unit = .pll) :
    exec i s = .next (respond .pll (ruleOf i s).1 (ruleOf i s).2) := by
  rw [exec_of_usable (by rw [hi]; exact h), hi]

/-- Everything a command can lead to. -/
theorem exec_cases {i : Instr} {s t : State} (h : exec i s = .next t) :
    (usable i.unit s = true ∧ t = respond i.unit (ruleOf i s).1 (ruleOf i s).2) ∨
    (usable i.unit s = false ∧ t = respond i.unit .unavailable s) := by
  rw [exec_eq_runCommand] at h
  exact runCommand_cases h

/-- A rule accepts its command or answers out of range (60 R204). -/
theorem ruleOf_cls (i : Instr) (s : State) : (ruleOf i s).1 = .accepted ∨ (ruleOf i s).1 = .outOfRange := by
  have hdds (f : Hz) : (ddsStoreFreq f s).1 = .accepted := by rw [ddsStoreFreq_eq]
  have hpll (n : Int) : (pllStoreFreq n s).1 = .accepted ∨ (pllStoreFreq n s).1 = .outOfRange := by
    rcases pllStoreFreq_cases n s with ⟨-, h⟩ | ⟨-, h⟩ <;> rw [h] <;> simp
  cases i <;> simp only [ruleOf] <;> first
    | exact .inl rfl
    | exact .inl trivial
    | exact .inl (hdds _)
    | exact hpll _
    | (split <;> simp [ignored, hdds])

/-- The word a step runs. -/
theorem step_of_host {s : State} {w : Cmd} {rest : List Cmd} (hw : s.cfg.WellFormed) (h : s.host = w :: rest) :
    step s = runWord w { s with host := rest } := by
  simp only [step, serveHost, h, if_pos hw]

/-- What a step does to a state: it waits; it answers and changes nothing else; or an accepted command's rule runs. -/
theorem step_effects {s t : State} (h : step s = .next t) :
    s.cfg.WellFormed ∧
    ((s.host = [] ∧ t = s) ∨
      ∃ w rest, s.host = w :: rest ∧
        ((∃ u cls, t = respond u cls { s with host := rest }) ∨
          ∃ i, usable i.unit { s with host := rest } = true ∧ (ruleOf i { s with host := rest }).1 = .accepted ∧
            t = respond i.unit .accepted (ruleOf i { s with host := rest }).2)) := by
  obtain ⟨hw, h⟩ := step_cases h
  refine ⟨hw, h.imp_right ?_⟩
  rintro ⟨w, rest, hh, h⟩
  refine ⟨w, rest, hh, ?_⟩
  rcases runWord_cases h with ⟨i, -, h⟩ | ⟨u, cls, -, h⟩
  · rcases runCommand_cases h with ⟨h1, rfl⟩ | ⟨h1, rfl⟩
    · by_cases hc : (ruleOf i { s with host := rest }).1 = .accepted
      · exact .inr ⟨i, h1, hc, by rw [hc]⟩
      · exact .inl ⟨_, _, by rw [ruleOf_ignored hc]⟩
    · exact .inl ⟨_, _, rfl⟩
  · rcases runCommand_cases h with ⟨-, rfl⟩ | ⟨-, rfl⟩ <;> exact .inl ⟨_, _, rfl⟩

/-! ### The two streams of a log (20 R40) -/

theorem ddsStream_append (a b : List TxEvent) : ddsStream (a ++ b) = ddsStream a ++ ddsStream b := List.filter_append _ _

theorem pllStream_append (a b : List TxEvent) : pllStream (a ++ b) = pllStream a ++ pllStream b := List.filter_append _ _

theorem ddsStream_pllTransmit (ws : PllWords) : ddsStream (pllTransmit ws) = [] := rfl

theorem pllStream_pllTransmit (ws : PllWords) : pllStream (pllTransmit ws) = pllTransmit ws := rfl

theorem ddsStream_frames (ws : List Word32) : ddsStream (ws.map ddsFrame) = ws.map ddsFrame := by
  induction ws with
  | nil => rfl
  | cons a l ih => exact congrArg (ddsFrame a :: ·) ih

theorem pllStream_frames (ws : List Word32) : pllStream (ws.map ddsFrame) = [] := by
  induction ws with
  | nil => rfl
  | cons a l ih => exact ih

/-! ### The fields of a response word (30 R68) -/

theorem rspWord_fields (u : UnitSel) (st : RspStatus) (en : Bool) (p : BitVec 2) (f d : Hz) :
    rspUnit (rspWord u st en p f d) = u.code ∧ rspStatus (rspWord u st en p f d) = st.bit ∧
    rspReserved (rspWord u st en p f d) = 0#2 ∧ rspEn (rspWord u st en p f d) = en ∧
    rspPower (rspWord u st en p f d) = p ∧ rspFreq (rspWord u st en p f d) = f ∧ rspStep (rspWord u st en p f d) = d := by
  refine ⟨?_, by simp only [rspStatus, rspWord, BitVec.getLsbD_append]; cases st <;> rfl, ?_,
    by simp only [rspEn, rspWord, BitVec.getLsbD_append]; cases en <;> rfl, ?_, ?_, ?_⟩ <;>
    (apply BitVec.eq_of_getLsbD_eq; intro i hi)
  · simp only [rspUnit, rspWord, BitVec.getLsbD_extractLsb', BitVec.getLsbD_append, hi, show ¬ 134 + i < 64 by omega,
      show ¬ 134 + i - 64 < 64 by omega, show ¬ 134 + i - 64 - 64 < 2 by omega, show ¬ 134 + i - 64 - 64 - 2 < 2 by omega,
      show ¬ 134 + i - 64 - 64 - 2 - 2 < 1 by omega, show ¬ 134 + i - 64 - 64 - 2 - 2 - 1 < 1 by omega,
      show 134 + i - 64 - 64 - 2 - 2 - 1 - 1 = i by omega, if_false, decide_true, Bool.true_and]
  · simp only [rspReserved, rspWord, BitVec.getLsbD_extractLsb', BitVec.getLsbD_append, hi, show ¬ 128 + i < 64 by omega,
      show ¬ 128 + i - 64 < 64 by omega, show 128 + i - 64 - 64 = i by omega, if_false, if_true, decide_true, Bool.true_and]
  · simp only [rspPower, rspWord, BitVec.getLsbD_extractLsb', BitVec.getLsbD_append, hi, show ¬ 130 + i < 64 by omega,
      show ¬ 130 + i - 64 < 64 by omega, show ¬ 130 + i - 64 - 64 < 2 by omega, show 130 + i - 64 - 64 - 2 = i by omega,
      if_false, if_true, decide_true, Bool.true_and]
  · simp only [rspFreq, rspWord, BitVec.getLsbD_extractLsb', BitVec.getLsbD_append, hi, show ¬ 64 + i < 64 by omega,
      show 64 + i - 64 = i by omega, if_false, if_true, decide_true, Bool.true_and]
  · simp only [rspStep, rspWord, BitVec.getLsbD_extractLsb', BitVec.getLsbD_append, hi, Nat.zero_add, if_true, decide_true,
      Bool.true_and]

/-! ### The textual form of a response (30 R78) -/

@[simp] theorem unitOfCode_code (u : UnitSel) : unitOfCode u.code = some u := by cases u <;> rfl

@[simp] theorem statusOfBit_bit (st : RspStatus) : statusOfBit st.bit = st := by cases st <;> rfl

/-- The DDS backend's frequency is always a number. -/
theorem freqText_dds (f : Hz) : freqText .dds f = .numeric f.toNat := rfl

/-- A PLL frequency that fits 31 bits is a number, whichever range the text calls safe. -/
theorem freqText_pll_of_le {f : Hz} (h : f.toNat ≤ 2147483647) : freqText .pll f = .numeric f.toNat := by
  unfold freqText textSafeMax
  split_ifs <;> first | rfl | omega

/-- A PLL frequency that needs more than 32 bits is decimal text, whichever range the text calls safe. -/
theorem freqText_pll_of_gt {f : Hz} (h : 4294967295 < f.toNat) : freqText .pll f = .decimalText f.toNat := by
  unfold freqText textSafeMax
  split_ifs <;> first | rfl | omega

/-- The text of a response word, field by field. -/
theorem responseText_rspWord (u : UnitSel) (st : RspStatus) (en : Bool) (p : BitVec 2) (f d : Hz) :
    responseText (rspWord u st en p f d) = some ⟨st, u, en, p.toNat, freqText u f, .numeric d.toNat⟩ := by
  obtain ⟨hu, hs, -, he, hp, hf, hd⟩ := rspWord_fields u st en p f d
  simp [responseText, hu, hs, he, hp, hf, hd]

end Sys2Proof.Machine
end

