-- ==== Sys2Proof/Laws/PerInstr.lean ====
section
/-! SUPPORT. Statements made for every instruction, one lemma per constructor (LAWS.json "per_instruction"). -/

namespace Sys2Proof.Laws.EncodedRow

/-- The encoded word satisfies the instruction's own row of the opcode table, carries its unit, and has the reserved bit 0
(spec 30 R60, R61, R80). -/
def Statement (i : Instr) : Prop :=
  (opcodeRow i).Matches (encode i) ∧ cmdUnit (encode i) = i.unit.code ∧ (encode i).getLsbD 64 = false

/-- The statement for an instruction whose encoding is a packed word: its row, field by field. -/
theorem of_packCmd {i : Instr} {u : UnitSel} {op : BitVec 4} {p : Bool} {a : Hz} {r : OpcodeRow}
    (he : encode i = packCmd u op p a) (hu : i.unit = u) (hr : opcodeRow i = r) (hm : r.Matches (packCmd u op p a)) :
    Statement i := by
  subst hu
  exact ⟨by rw [he, hr]; exact hm, by rw [he, cmdUnit_packCmd], by rw [he, reserved_packCmd]⟩

/-- A row that tests no bit of `arg`. -/
theorem arg_free (a : Hz) (pattern : Cmd) (h : cmdArg pattern = 0#64) :
    a &&& cmdArg 0xFE0000000000000000#72 = cmdArg pattern := by
  rw [show cmdArg 0xFE0000000000000000#72 = 0#64 by decide, h]
  exact BitVec.and_zero

theorem ddsStatus : Statement .ddsStatus :=
  of_packCmd rfl rfl rfl (matches_packCmd rfl rfl rfl rfl rfl)

theorem ddsSetf (arg : Hz) : Statement (.ddsSetf arg) :=
  of_packCmd (r := ⟨0xFE0000000000000000#72, 0x060000000000000000#72⟩) rfl rfl rfl
    (matches_packCmd rfl rfl rfl rfl (arg_free _ _ rfl))

theorem ddsUp : Statement .ddsUp :=
  of_packCmd rfl rfl rfl (matches_packCmd rfl rfl rfl rfl rfl)

theorem ddsDown : Statement .ddsDown :=
  of_packCmd rfl rfl rfl (matches_packCmd rfl rfl rfl rfl rfl)

theorem ddsSetstep (arg : Hz) : Statement (.ddsSetstep arg) :=
  of_packCmd (r := ⟨0xFE0000000000000000#72, 0x0E0000000000000000#72⟩) rfl rfl rfl
    (matches_packCmd rfl rfl rfl rfl (arg_free _ _ rfl))

theorem ddsEn : Statement .ddsEn :=
  of_packCmd rfl rfl rfl (matches_packCmd rfl rfl rfl rfl rfl)

theorem ddsDis : Statement .ddsDis :=
  of_packCmd rfl rfl rfl (matches_packCmd rfl rfl rfl rfl rfl)

theorem pllStatus : Statement .pllStatus :=
  of_packCmd rfl rfl rfl (matches_packCmd rfl rfl rfl rfl rfl)

theorem pllSetf (arg : Hz) : Statement (.pllSetf arg) :=
  of_packCmd (r := ⟨0xFE0000000000000000#72, 0x460000000000000000#72⟩) rfl rfl rfl
    (matches_packCmd rfl rfl rfl rfl (arg_free _ _ rfl))

theorem pllUp : Statement .pllUp :=
  of_packCmd rfl rfl rfl (matches_packCmd rfl rfl rfl rfl rfl)

theorem pllDown : Statement .pllDown :=
  of_packCmd rfl rfl rfl (matches_packCmd rfl rfl rfl rfl rfl)

theorem pllSetstep (arg : Hz) : Statement (.pllSetstep arg) :=
  of_packCmd (r := ⟨0xFE0000000000000000#72, 0x4E0000000000000000#72⟩) rfl rfl rfl
    (matches_packCmd rfl rfl rfl rfl (arg_free _ _ rfl))

theorem pllEn : Statement .pllEn :=
  of_packCmd rfl rfl rfl (matches_packCmd rfl rfl rfl rfl rfl)

theorem pllDis : Statement .pllDis :=
  of_packCmd rfl rfl rfl (matches_packCmd rfl rfl rfl rfl rfl)

theorem pllSetpwr (arg : Hz) : Statement (.pllSetpwr arg) :=
  of_packCmd (r := ⟨0xFE0000000000000000#72, 0x5A0000000000000000#72⟩) rfl rfl rfl
    (matches_packCmd rfl rfl rfl rfl (arg_free _ _ rfl))

theorem pllToggle : Statement .pllToggle :=
  of_packCmd rfl rfl rfl (matches_packCmd rfl rfl rfl rfl rfl)

end Sys2Proof.Laws.EncodedRow
end

