-- ==== Sys2Proof/Tests/Slice0.lean ====
section
/-! SUPPORT. The model's own tests. Every expected value is a row of the spec's worked examples or vectors (95_test_vectors.md,
named in each comment) or a word written out from 30 R60 and R80. -/

namespace Sys2Proof.Tests

open Sys2Proof.Machine

/-! ### Well-formedness: the accepted instances, and one ill-formed term for each check -/

/-- EXP1 of 95_test_vectors.md. -/
def exp1 : Cfg :=
  { Config.scenario with
    pllR1Fixed := 0x00008000#32, pllR2Fixed := 0x00004E40#32, pllR3Fixed := 0x000004B0#32,
    pllR4Fixed := 0x008C8000#32, pllR5Fixed := 0x00580000#32 }

theorem test_wf_scenario_accepted : Config.scenario.WellFormed := by decide

theorem test_wf_exp1_accepted : exp1.WellFormed := by decide

theorem test_wf_refs_refused :
    ¬ { Config.scenario with ddsRefNum := 0 }.RefsPositive ∧ ¬ { Config.scenario with ddsRefDen := 0 }.RefsPositive ∧
    ¬ { Config.scenario with ddsScale := 0 }.RefsPositive ∧ ¬ { Config.scenario with pllRefHz := 0 }.RefsPositive := by
  decide

theorem test_wf_field_below_bit3_refused :
    ¬ { Config.scenario with pllPrescBit := 2 }.FieldsInWord ∧ ¬ { Config.scenario with pllModLsb := 2 }.FieldsInWord ∧
    ¬ { Config.scenario with pllRfdivLsb := 2 }.FieldsInWord ∧ ¬ { Config.scenario with pllRfenBit := 2 }.FieldsInWord ∧
    ¬ { Config.scenario with pllPwrLsb := 2 }.FieldsInWord := by decide

theorem test_wf_field_above_bit31_refused :
    ¬ { Config.scenario with pllPrescBit := 32 }.FieldsInWord ∧ ¬ { Config.scenario with pllModLsb := 21 }.FieldsInWord ∧
    ¬ { Config.scenario with pllRfdivLsb := 30 }.FieldsInWord ∧ ¬ { Config.scenario with pllRfenBit := 32 }.FieldsInWord ∧
    ¬ { Config.scenario with pllPwrLsb := 31 }.FieldsInWord := by decide

theorem test_wf_overlap_refused :
    ¬ { Config.scenario with pllPrescBit := 14 }.FieldsDisjoint ∧ ¬ { Config.scenario with pllRfenBit := 22 }.FieldsDisjoint ∧
    ¬ { Config.scenario with pllPwrLsb := 19 }.FieldsDisjoint ∧ ¬ { Config.scenario with pllRfenBit := 4 }.FieldsDisjoint := by
  decide

theorem test_wf_address_bits_refused :
    ¬ { Config.scenario with pllR1Fixed := 1#32 }.AddressBitsClear ∧ ¬ { Config.scenario with pllR2Fixed := 2#32 }.AddressBitsClear ∧
    ¬ { Config.scenario with pllR3Fixed := 4#32 }.AddressBitsClear ∧ ¬ { Config.scenario with pllR4Fixed := 4#32 }.AddressBitsClear ∧
    ¬ { Config.scenario with pllR5Fixed := 1#32 }.AddressBitsClear := by decide

theorem test_wf_fixed_over_field_refused :
    ¬ { Config.scenario with pllR1Fixed := 0x08000000#32 }.R1FieldsClear ∧
    ¬ { Config.scenario with pllR1Fixed := 0x00004000#32 }.R1FieldsClear ∧
    ¬ { Config.scenario with pllR4Fixed := 0x00400000#32 }.R4FieldsClear ∧
    ¬ { Config.scenario with pllR4Fixed := 0x00000020#32 }.R4FieldsClear ∧
    ¬ { Config.scenario with pllR4Fixed := 0x00000010#32 }.R4FieldsClear := by decide

theorem test_wf_reset_values_refused :
    ¬ { Config.scenario with ddsResetFreq := 40000001#64 }.ResetInRange ∧
    ¬ { Config.scenario with pllResetFreq := 34999999#64 }.ResetInRange ∧
    ¬ { Config.scenario with pllResetFreq := 4400000001#64 }.ResetInRange ∧
    ¬ { Config.scenario with pllResetStep := 5000#64 }.ResetInRange := by decide

/-- An ill-formed configuration is refused by the step (00 R8). -/
theorem test_step_refuses_ill_formed_config :
    (match step { State.reset with cfg := { Config.scenario with pllRefHz := 0 } } with
      | .refused r => some r
      | _ => none) = some .illFormedConfig := by decide

/-! ### Decoding: words written out from 30 R60 and R80 -/

theorem test_decode_ddsStatus : decode 0x000000000000000000#72 = .ok .ddsStatus := by decide
theorem test_decode_ddsSetf : decode 0x0600000000000F4240#72 = .ok (.ddsSetf 1000000#64) := by decide
theorem test_decode_ddsUp : decode 0x0A0000000000000001#72 = .ok .ddsUp := by decide
theorem test_decode_ddsDown : decode 0x0A0000000000000000#72 = .ok .ddsDown := by decide
theorem test_decode_ddsSetstep : decode 0x0E0000000000000064#72 = .ok (.ddsSetstep 100#64) := by decide
theorem test_decode_ddsEn : decode 0x100000000000000000#72 = .ok .ddsEn := by decide
theorem test_decode_ddsDis : decode 0x140000000000000000#72 = .ok .ddsDis := by decide
theorem test_decode_pllStatus : decode 0x400000000000000000#72 = .ok .pllStatus := by decide
theorem test_decode_pllSetf : decode 0x460000000019DD1800#72 = .ok (.pllSetf 433920000#64) := by decide
theorem test_decode_pllUp : decode 0x4A0000000000000001#72 = .ok .pllUp := by decide
theorem test_decode_pllDown : decode 0x4A0000000000000000#72 = .ok .pllDown := by decide
theorem test_decode_pllSetstep : decode 0x4E0000000000989680#72 = .ok (.pllSetstep 10000000#64) := by decide
theorem test_decode_pllEn : decode 0x500000000000000000#72 = .ok .pllEn := by decide
theorem test_decode_pllDis : decode 0x540000000000000000#72 = .ok .pllDis := by decide
theorem test_decode_pllSetpwr : decode 0x5A0000000000000004#72 = .ok (.pllSetpwr 4#64) := by decide
theorem test_decode_pllToggle : decode 0x5C0000000000000000#72 = .ok .pllToggle := by decide

/-- The ignored bits (R60, R63, R64): bit 64, `argp` and `arg` of EN, `arg[63:1]` of UP. -/
theorem test_decode_ignored_bits :
    decode 0x130000000000000005#72 = .ok .ddsEn ∧ decode 0x4BFFFFFFFFFFFFFFFF#72 = .ok .pllUp ∧
    decode 0x0B8000000000000000#72 = .ok .ddsDown := by decide

/-- Unknown sub-actions, missing parameters and refused units (R61, R66; 95 V-DDS, V-PLL). -/
theorem test_decode_rejects_by_name :
    decode 0x660000000000000005#72 = .error (.unknownOp .pll) ∧ decode 0x1A0000000000000002#72 = .error (.unknownOp .dds) ∧
    decode 0x1C0000000000000000#72 = .error (.unknownOp .dds) ∧ decode 0x3E0000000000000000#72 = .error (.unknownOp .dds) ∧
    decode 0x0400000000000F4240#72 = .error (.missingParam .dds) ∧
    decode 0x440000000019DD1800#72 = .error (.missingParam .pll) ∧ decode 0x580000000000000000#72 = .error (.missingParam .pll) ∧
    decode 0x8A0000000000000001#72 = .error (.noSuchUnit 2#2) ∧ decode 0xC00000000000000000#72 = .error (.noSuchUnit 3#2) := by
  decide

/-! ### The pure functions (95 V-TW, V-TW-CORNER, V-DIV, V-ENC) -/

theorem test_tuning_word_vectors :
    ddsTuningWord Config.scenario 1000000#64 = 0x020C49BA#32 ∧ ddsTuningWord Config.scenario 40000000#64 = 0x51EB851F#32 ∧
    ddsTuningWord { Config.scenario with ddsScale := 4294967295 } 40000000#64 = 0x51EB851E#32 := by decide

/-- A tie, a wraparound and a reference that is no integer. -/
theorem test_tuning_word_corners :
    ddsTuningWord { Config.scenario with ddsRefNum := 8589934592 } 3#64 = 2#32 ∧
    ddsTuningWord { Config.scenario with ddsRefNum := 3000000 } 40000000#64 = 0x55555555#32 ∧
    ddsTuningWord { Config.scenario with ddsRefNum := 250000001, ddsRefDen := 2 } 10000000#64 = 0x147AE146#32 := by decide

theorem test_rf_div_sel_boundaries :
    pllRfDivSel 2200000000 = 0 ∧ pllRfDivSel 2199999999 = 1 ∧ pllRfDivSel 433920000 = 3 ∧ pllRfDivSel 68750000 = 5 ∧
    pllRfDivSel 68749999 = 6 := by decide

/-- A tie of FRAC (95 V-DIV-OTHER), and FRAC = MOD. -/
theorem test_frac_corners :
    pllFrac { Config.scenario with pllRefHz := 8190000 } (pllVco 2203111000) = 1 ∧
    pllFrac Config.scenario (pllVco 68749999) = 4095 ∧ pllInt Config.scenario (pllVco 68749999) = 549 := by decide

theorem test_encode_exp1 :
    pllEncode exp1 433920000#64 true 0#2 =
      ⟨0x00D8F5B8#32, 0x0000FFF9#32, 0x00004E42#32, 0x000004B3#32, 0x00BC8024#32, 0x00580005#32⟩ := by decide

theorem test_encode_prescaler_exp1 :
    (pllEncode exp1 3600000000#64 true 3#2).w1 = 0x0800FFF9#32 ∧ (pllEncode exp1 3600000000#64 true 3#2).w0 = 0x00E10000#32 := by
  decide

/-! ### Commands: one step on a small state (95 V-DDS, V-PLL) -/

/-- What a test looks at: the registers, the log and the responses. -/
def seen (o : Host.Outcome State Fault Refusal) : Option (DdsRegs × PllRegs × List TxEvent × List Response) :=
  match o with
  | .next t => some (t.dds, t.pll, t.txlog, t.rsplog)
  | _ => none

/-- A state after reset but for the DDS registers, with one word presented. -/
def ddsAt (freq step : Hz) (en : Bool) (w : Cmd) : State := present w { State.reset with dds := ⟨freq, step, en⟩ }

/-- A state after reset but for the PLL registers, with one word presented. -/
def pllAt (freq step : Hz) (power : BitVec 2) (rfOn : Bool) (w : Cmd) : State :=
  present w { State.reset with pll := ⟨freq, step, power, rfOn⟩ }

/-- The outcome of a DDS step: the PLL registers are those of reset. -/
def ddsGives (freq step : Hz) (en : Bool) (log : List TxEvent) (cls : OutcomeClass) (rsp : Rsp) :
    Option (DdsRegs × PllRegs × List TxEvent × List Response) :=
  some (⟨freq, step, en⟩, State.reset.pll, log, [⟨cls, rsp⟩])

/-- The outcome of a PLL step: the DDS registers are those of reset. -/
def pllGives (freq step : Hz) (power : BitVec 2) (rfOn : Bool) (log : List TxEvent) (cls : OutcomeClass) (rsp : Rsp) :
    Option (DdsRegs × PllRegs × List TxEvent × List Response) :=
  some (State.reset.dds, ⟨freq, step, power, rfOn⟩, log, [⟨cls, rsp⟩])

theorem test_ddsSetf_transmits :
    seen (step (ddsAt 0 1000 true 0x0600000000000F4240#72)) =
      ddsGives 1000000 1000 true [.ddsFrame 0xBA 0x49 0x0C 0x02 0x00] .accepted 0x1000000000000F424000000000000003E8#136 := by
  decide

theorem test_ddsSetf_out_of_range :
    seen (step (ddsAt 7100000 100 true 0x060000000002625A01#72)) =
      ddsGives 7100000 100 true [] .outOfRange 0x1000000000006C56600000000000000064#136 := by decide

theorem test_ddsUp_saturates :
    seen (step (ddsAt 1000 0xFFFFFFFFFFFFFFFF#64 true 0x0A0000000000000001#72)) =
      ddsGives 40000000 0xFFFFFFFFFFFFFFFF#64 true [.ddsFrame 0x1F 0x85 0xEB 0x51 0x00] .accepted
        0x100000000002625A00FFFFFFFFFFFFFFFF#136 := by decide

theorem test_ddsDown_saturates :
    seen (step (ddsAt 500 1000 true 0x0A0000000000000000#72)) =
      ddsGives 0 1000 true [.ddsFrame 0 0 0 0 0] .accepted 0x10000000000000000000000000000003E8#136 := by decide

theorem test_ddsDown_latches_while_disabled :
    seen (step (ddsAt 500 1000 false 0x0A0000000000000000#72)) =
      ddsGives 0 1000 false [] .accepted 0x00000000000000000000000000000003E8#136 := by decide

theorem test_ddsSetstep :
    seen (step (ddsAt 0 1000 false 0x0E0000000000000064#72)) =
      ddsGives 0 100 false [] .accepted 0x0000000000000000000000000000000064#136 := by decide

theorem test_ddsEn :
    seen (step (ddsAt 7100000 1000 false 0x100000000000000000#72)) =
      ddsGives 7100000 1000 true [.ddsFrame 0xDE 0x71 0x8A 0x0E 0x00] .accepted 0x1000000000006C566000000000000003E8#136 := by
  decide

/-- An unusable DDS unit (95 P3 row 1). -/
theorem test_ddsEn_unavailable :
    seen (step { ddsAt 0 1000 false 0x100000000000000000#72 with ddsUsable := false }) =
      ddsGives 0 1000 false [] .unavailable 0x20000000000000000000000000000003E8#136 := by decide

theorem test_ddsDis :
    seen (step (ddsAt 7100000 1000 true 0x140000000000000000#72)) =
      ddsGives 7100000 1000 false [.ddsFrame 0 0 0 0 0] .accepted 0x0000000000006C566000000000000003E8#136 := by decide

theorem test_ddsStatus :
    seen (step (ddsAt 7100000 1000 false 0x000000000000000000#72)) =
      ddsGives 7100000 1000 false [] .accepted 0x0000000000006C566000000000000003E8#136 := by decide

theorem test_dds_missing_param :
    seen (step (ddsAt 7100000 1000 false 0x0400000000000F4240#72)) =
      ddsGives 7100000 1000 false [] .missingParam 0x0000000000006C566000000000000003E8#136 := by decide

theorem test_dds_unknown_op :
    seen (step (ddsAt 7100000 1000 false 0x1A0000000000000002#72)) =
      ddsGives 7100000 1000 false [] .unknownOp 0x0000000000006C566000000000000003E8#136 := by decide

/-- The events of a PLL transmission whose words 5, 3, 2 are EXP0's and word 1 has the prescaler bit `p`, written from 41 R116's
order. -/
def exp0Events (w4hi w4lo p : Byte) (w0a w0b w0c w0d : Byte) : List TxEvent :=
  [.pllWord 5 0 0 0 5, .pllSettle, .pllWord 4 0 w4hi 0 w4lo, .pllSettle, .pllWord 3 0 0 0 3, .pllSettle,
   .pllWord 2 0 0 0 2, .pllSettle, .pllWord 1 p 0 0x7F 0xF9, .pllSettle, .pllWord 0 w0a w0b w0c w0d, .pllSettle]

theorem test_pllSetf :
    seen (step (pllAt 2400000000 1000000 3 true 0x460000000019DD1800#72)) =
      pllGives 433920000 1000000 3 true (exp0Events 0x30 0x3C 0 0x00 0xD8 0xF5 0xB8) .accepted
        0x5C0000000019DD180000000000000F4240#136 := by decide

/-- IV's scenario S10. -/
theorem test_pllSetf_below_minimum :
    seen (step (pllAt 433920000 10000000 0 false 0x460000000000989680#72)) =
      pllGives 433920000 10000000 0 false [] .outOfRange 0x400000000019DD18000000000000989680#136 := by decide

/-- P4 row 2: the step crosses the divider boundary. -/
theorem test_pllUp_crosses_boundary :
    seen (step (pllAt 2199999995 10 3 true 0x4A0000000000000001#72)) =
      pllGives 2200000005 10 3 true (exp0Events 0x00 0x3C 0 0x00 0x89 0x80 0x00) .accepted
        0x5C0000000083215605000000000000000A#136 := by decide

theorem test_pllUp_not_clamped :
    seen (step (pllAt 4400000000 10 3 true 0x4A0000000000000001#72)) =
      pllGives 4400000000 10 3 true [] .outOfRange 0x5C000000010642AC00000000000000000A#136 := by decide

theorem test_pllDown :
    seen (step (pllAt 434920000 1000000 3 true 0x4A0000000000000000#72)) =
      pllGives 433920000 1000000 3 true (exp0Events 0x30 0x3C 0 0x00 0xD8 0xF5 0xB8) .accepted
        0x5C0000000019DD180000000000000F4240#136 := by decide

theorem test_pllDown_not_clamped :
    seen (step (pllAt 35000000 10 3 true 0x4A0000000000000000#72)) =
      pllGives 35000000 10 3 true [] .outOfRange 0x5C0000000002160EC0000000000000000A#136 := by decide

theorem test_pllSetpwr :
    seen (step (pllAt 433920000 1000000 3 true 0x5A0000000000000000#72)) =
      pllGives 433920000 1000000 0 true (exp0Events 0x30 0x24 0 0x00 0xD8 0xF5 0xB8) .accepted
        0x500000000019DD180000000000000F4240#136 := by decide

theorem test_pllSetpwr_out_of_range :
    seen (step (pllAt 433920000 1000000 0 true 0x5A0000000000000004#72)) =
      pllGives 433920000 1000000 0 true [] .outOfRange 0x500000000019DD180000000000000F4240#136 := by decide

theorem test_pllSetstep :
    seen (step (pllAt 433920000 1000000 0 true 0x4E0000000000989680#72)) =
      pllGives 433920000 10000000 0 true [] .accepted 0x500000000019DD18000000000000989680#136 := by decide

theorem test_pllSetstep_ignored :
    seen (step (pllAt 433920000 10000000 0 true 0x4E0000000000001388#72)) =
      pllGives 433920000 10000000 0 true [] .outOfRange 0x500000000019DD18000000000000989680#136 := by decide

theorem test_pllEn :
    seen (step (pllAt 433920000 10000000 0 false 0x500000000000000000#72)) =
      pllGives 433920000 10000000 0 true (exp0Events 0x30 0x24 0 0x00 0xD8 0xF5 0xB8) .accepted
        0x500000000019DD18000000000000989680#136 := by decide

theorem test_pllDis :
    seen (step (pllAt 433920000 10000000 0 true 0x540000000000000000#72)) =
      pllGives 433920000 10000000 0 false (exp0Events 0x30 0x04 0 0x00 0xD8 0xF5 0xB8) .accepted
        0x400000000019DD18000000000000989680#136 := by decide

theorem test_pllToggle :
    seen (step (pllAt 433920000 10000000 0 true 0x5C0000000000000000#72)) =
      pllGives 433920000 10000000 0 false (exp0Events 0x30 0x04 0 0x00 0xD8 0xF5 0xB8) .accepted
        0x400000000019DD18000000000000989680#136 := by decide

theorem test_pllStatus :
    seen (step (pllAt 433920000 10000000 0 false 0x400000000000000000#72)) =
      pllGives 433920000 10000000 0 false [] .accepted 0x400000000019DD18000000000000989680#136 := by decide

theorem test_pll_unknown_op :
    seen (step (pllAt 433920000 10000000 0 false 0x660000000000000005#72)) =
      pllGives 433920000 10000000 0 false [] .unknownOp 0x400000000019DD18000000000000989680#136 := by decide

/-- A `unit` 2 word is refused (95 V-PLL, last row). -/
theorem test_unit2_refused :
    (match step (present 0x8A0000000000000001#72 State.reset) with
      | .refused r => some r
      | _ => none) = some (.noSuchUnit 2#2) := by decide

/-- The JSON mapping (R77). -/
theorem test_translate :
    translateText .adf4351 (.setFreq (some 433920000)) = 0x460000000019DD1800#72 ∧
    translateText .ad9850 (.changeFreq (some .down)) = 0x0A0000000000000000#72 ∧
    translateText .adf4351 (.setPower (some (-1))) = 0x580000000000000000#72 ∧
    translateText .vfo .enable = 0x900000000000000000#72 := by decide

/-- The text of a response (R78) on the word of 44 R182's example, with a frequency the PLL backend writes as a number. -/
theorem test_responseText_ok :
    responseText 0x400000000019DD18000000000000989680#136 =
      some ⟨.ok, .pll, false, 0, .numeric 433920000, .numeric 10000000⟩ := by
  have h : (0x400000000019DD18000000000000989680#136 : Rsp) = rspWord .pll .ok false 0#2 433920000#64 10000000#64 := by decide
  rw [h, responseText_rspWord, freqText_pll_of_le (by decide)]
  rfl

/-- The text of a response with the error status (R78), on the word of 95 P3 row 1. -/
theorem test_responseText_error :
    responseText 0x20000000000000000000000000000003E8#136 = some ⟨.error, .dds, false, 0, .numeric 0, .numeric 1000⟩ := by
  have h : (0x20000000000000000000000000000003E8#136 : Rsp) = rspWord .dds .error false 0#2 0#64 1000#64 := by decide
  rw [h, responseText_rspWord, freqText_dds]
  rfl

/-- A `unit` that answers nothing has no text (R61). -/
theorem test_responseText_none : responseText 0x8000000000000000000000000000000000#136 = none := by rfl

/-- A frequency of 32 safe bits and one above them on the PLL backend, and the same on the DDS backend (R78). -/
theorem test_freqText :
    freqText .pll 433920000#64 = .numeric 433920000 ∧ freqText .pll 4400000000#64 = .decimalText 4400000000 ∧
    freqText .dds 4400000000#64 = .numeric 4400000000 :=
  ⟨freqText_pll_of_le (by decide), freqText_pll_of_gt (by decide), rfl⟩

/-! ### Witnesses: for each statement with hypotheses, concrete states and operands that meet them all, every clause at a
boundary value -/

/-- Whether an outcome is a next state. -/
def isNext (o : Host.Outcome State Fault Refusal) : Bool :=
  match o with
  | .next _ => true
  | _ => false

theorem next_of_isNext {o : Host.Outcome State Fault Refusal} (h : isNext o = true) : ∃ t, o = .next t := by
  cases o with
  | next t => exact ⟨t, rfl⟩
  | fault f => cases f
  | refused r => cases h

/-- Whether an outcome from `s` is a next state with one response more, of class `cls`. -/
def answers (o : Host.Outcome State Fault Refusal) (s : State) (cls : OutcomeClass) : Bool :=
  match o with
  | .next t =>
    match t.rsplog.drop s.rsplog.length with
    | [r] => decide (t.rsplog = s.rsplog ++ [r] ∧ r.cls = cls)
    | _ => false
  | _ => false

/-- The same as a proposition: the form the statements' hypotheses have. -/
def Responds (o : Host.Outcome State Fault Refusal) (s : State) (cls : OutcomeClass) : Prop :=
  ∃ (t : State) (r : Response), o = .next t ∧ t.rsplog = s.rsplog ++ [r] ∧ r.cls = cls

theorem of_answers {o : Host.Outcome State Fault Refusal} {s : State} {cls : OutcomeClass} (h : answers o s cls = true) :
    Responds o s cls := by
  unfold answers at h
  split at h
  · split at h
    · exact ⟨_, _, rfl, of_decide_eq_true h⟩
    · cases h
  · cases h

/-- After reset with both straps 0. -/
def unusableAt (w : Cmd) : State := { present w State.reset with ddsUsable := false, pllUsable := false }

/-! #### Encoding -/

theorem witness_EncodeRestoresSignificantBits :
    decode 0x4BFFFFFFFFFFFFFFFF#72 = .ok .pllUp ∧ decode 0x070000000000000005#72 = .ok (.ddsSetf 5#64) := by decide

theorem witness_DecodingFollowsTheOpcodeTable_unit :
    2 ≤ (cmdUnit 0x8A0000000000000001#72).toNat ∧ 2 ≤ (cmdUnit 0xC00000000000000000#72).toNat := by decide

theorem witness_DecodingFollowsTheOpcodeTable_disjoint :
    (opcodeRow (.ddsSetf 0#64)).Matches 0x060000000000000007#72 ∧ (opcodeRow (.ddsSetf 1#64)).Matches 0x060000000000000007#72 := by
  decide

/-- `op` 9 of the PLL unit. -/
theorem witness_DecodingFollowsTheOpcodeTable_unknown_op :
    (cmdUnit 0x660000000000000005#72).toNat < 2 ∧ ∀ i : Instr, ¬ (opcodeRow i).Matches 0x660000000000000005#72 := by
  refine ⟨by decide, fun i => ?_⟩
  cases i with
  | ddsSetf a => exact (by decide : ¬ (opcodeRow (.ddsSetf 0#64)).Matches 0x660000000000000005#72)
  | ddsSetstep a => exact (by decide : ¬ (opcodeRow (.ddsSetstep 0#64)).Matches 0x660000000000000005#72)
  | pllSetf a => exact (by decide : ¬ (opcodeRow (.pllSetf 0#64)).Matches 0x660000000000000005#72)
  | pllSetstep a => exact (by decide : ¬ (opcodeRow (.pllSetstep 0#64)).Matches 0x660000000000000005#72)
  | pllSetpwr a => exact (by decide : ¬ (opcodeRow (.pllSetpwr 0#64)).Matches 0x660000000000000005#72)
  | _ => decide

/-- DDS.SETF's `op` with `argp` = 0. -/
theorem witness_DecodingFollowsTheOpcodeTable_missing_parameter :
    (cmdUnit 0x0400000000000F4240#72).toNat < 2 ∧ ∀ i : Instr, ¬ (opcodeRow i).Matches 0x0400000000000F4240#72 := by
  refine ⟨by decide, fun i => ?_⟩
  cases i with
  | ddsSetf a => exact (by decide : ¬ (opcodeRow (.ddsSetf 0#64)).Matches 0x0400000000000F4240#72)
  | ddsSetstep a => exact (by decide : ¬ (opcodeRow (.ddsSetstep 0#64)).Matches 0x0400000000000F4240#72)
  | pllSetf a => exact (by decide : ¬ (opcodeRow (.pllSetf 0#64)).Matches 0x0400000000000F4240#72)
  | pllSetstep a => exact (by decide : ¬ (opcodeRow (.pllSetstep 0#64)).Matches 0x0400000000000F4240#72)
  | pllSetpwr a => exact (by decide : ¬ (opcodeRow (.pllSetpwr 0#64)).Matches 0x0400000000000F4240#72)
  | _ => decide

theorem witness_TextCommandsTranslate :
    ((0 : Int) ≤ 0 ∧ (0 : Int) < 2 ^ 64) ∧ ((0 : Int) ≤ 2 ^ 64 - 1 ∧ (2 ^ 64 - 1 : Int) < 2 ^ 64) ∧
    (∀ n, (none : Option Int) = some n → n < 0 ∨ 2 ^ 64 ≤ n) ∧ (∀ n, some (-1 : Int) = some n → n < 0 ∨ 2 ^ 64 ≤ n) ∧
    ∀ n, some (2 ^ 64 : Int) = some n → n < 0 ∨ 2 ^ 64 ≤ n := by
  refine ⟨by decide, by decide, by simp, by simp, by simp⟩

/-! #### The step and the outcome classes -/

theorem witness_StepRunsTheDecodedCommand :
    (present 0x140000000000000000#72 State.reset).cfg.WellFormed ∧
    (present 0x140000000000000000#72 State.reset).host = 0x140000000000000000#72 :: [] ∧
    decode 0x140000000000000000#72 = .ok .ddsDis := by decide

theorem witness_StepRefusesOnlyByRule :
    ¬ (State.ofCfg { Config.scenario with pllRefHz := 0 }).cfg.WellFormed ∧
    ((present 0x800000000000000000#72 State.reset).cfg.WellFormed ∧
      (present 0x800000000000000000#72 State.reset).host = 0x800000000000000000#72 :: [] ∧
      2 ≤ (cmdUnit 0x800000000000000000#72).toNat) ∧
    ((present 0x7FFFFFFFFFFFFFFFFF#72 State.reset).host = 0x7FFFFFFFFFFFFFFFFF#72 :: [] ∧
      (cmdUnit 0x7FFFFFFFFFFFFFFFFF#72).toNat < 2) ∧
    State.reset.cfg.WellFormed ∧ State.reset.host = [] :=
  ⟨by decide, by decide, by decide, by decide, by decide⟩

/-- DDS `op` 6, 7 and 8, PLL `op` 8 and 15, presented to a usable unit. -/
theorem witness_UnknownSubActionIsNoOp :
    (∀ w : Cmd, (present w State.reset).cfg.WellFormed ∧ (present w State.reset).host = w :: [] ∧
      usable .dds (present w State.reset) = true ∧ usable .pll (present w State.reset) = true) ∧
    (cmdUnit 0x180000000000000000#72 = UnitSel.code .dds ∧ (cmdOp 0x180000000000000000#72).toNat = 6) ∧
    (cmdUnit 0x1C0000000000000000#72 = UnitSel.code .dds ∧ (cmdOp 0x1C0000000000000000#72).toNat = 7) ∧
    (cmdUnit 0x200000000000000000#72 = UnitSel.code .dds ∧ (cmdOp 0x200000000000000000#72).toNat = 8) ∧
    (cmdUnit 0x600000000000000000#72 = UnitSel.code .pll ∧ (cmdOp 0x600000000000000000#72).toNat = 8) ∧
    (cmdUnit 0x7E0000000000000000#72 = UnitSel.code .pll ∧ (cmdOp 0x7E0000000000000000#72).toNat = 15) :=
  ⟨fun _ => ⟨test_wf_scenario_accepted, rfl, rfl, rfl⟩, by decide⟩

/-- `op` 1, 2 and 3 of each unit and `op` 6 of the PLL unit, with `argp` = 0. -/
theorem witness_MissingParameterIsNoOp :
    (∀ w : Cmd, (present w State.reset).cfg.WellFormed ∧ (present w State.reset).host = w :: [] ∧
      usable .dds (present w State.reset) = true ∧ usable .pll (present w State.reset) = true) ∧
    (cmdUnit 0x0400000000000F4240#72 = UnitSel.code .dds ∧ cmdArgp 0x0400000000000F4240#72 = false ∧ (cmdOp 0x0400000000000F4240#72).toNat = 1) ∧
    (cmdUnit 0x080000000000000001#72 = UnitSel.code .dds ∧ cmdArgp 0x080000000000000001#72 = false ∧ (cmdOp 0x080000000000000001#72).toNat = 2) ∧
    (cmdUnit 0x0C0000000000000000#72 = UnitSel.code .dds ∧ cmdArgp 0x0C0000000000000000#72 = false ∧ (cmdOp 0x0C0000000000000000#72).toNat = 3) ∧
    (cmdUnit 0x440000000019DD1800#72 = UnitSel.code .pll ∧ cmdArgp 0x440000000019DD1800#72 = false ∧ (cmdOp 0x440000000019DD1800#72).toNat = 1) ∧
    (cmdUnit 0x480000000000000000#72 = UnitSel.code .pll ∧ cmdArgp 0x480000000000000000#72 = false ∧ (cmdOp 0x480000000000000000#72).toNat = 2) ∧
    (cmdUnit 0x4C0000000000000000#72 = UnitSel.code .pll ∧ cmdArgp 0x4C0000000000000000#72 = false ∧ (cmdOp 0x4C0000000000000000#72).toNat = 3) ∧
    (cmdUnit 0x580000000000000000#72 = UnitSel.code .pll ∧ cmdArgp 0x580000000000000000#72 = false ∧ (cmdOp 0x580000000000000000#72).toNat = 6) :=
  ⟨fun _ => ⟨test_wf_scenario_accepted, rfl, rfl, rfl⟩, by decide⟩

theorem witness_UnusableUnitAnswersErrorOnly :
    (usable Instr.ddsEn.unit (unusableAt 0#72) = false ∧ usable Instr.pllEn.unit (unusableAt 0#72) = false) ∧
    ((unusableAt 0x580000000000000000#72).cfg.WellFormed ∧
      (unusableAt 0x580000000000000000#72).host = 0x580000000000000000#72 :: [] ∧
      cmdUnit 0x580000000000000000#72 = UnitSel.code .pll ∧ usable .pll (unusableAt 0x580000000000000000#72) = false) ∧
    (unusableAt 0x3C0000000000000000#72).cfg.WellFormed ∧
    (unusableAt 0x3C0000000000000000#72).host = 0x3C0000000000000000#72 :: [] ∧
    cmdUnit 0x3C0000000000000000#72 = UnitSel.code .dds ∧ usable .dds (unusableAt 0x3C0000000000000000#72) = false := by
  refine ⟨?_, ?_, ?_⟩ <;> decide

theorem witness_UnusableUnitAnswersErrorOnly_straps :
    ∃ t, step (unusableAt 0x580000000000000000#72) = .next t :=
  next_of_isNext (by decide)

/-- The least word of unit 0 and the greatest of unit 1. -/
theorem witness_EveryCommandGetsOneResponse :
    (∀ w : Cmd, (present w State.reset).cfg.WellFormed ∧ (present w State.reset).host = w :: []) ∧
    (cmdUnit 0#72).toNat < 2 ∧ (cmdUnit 0x7FFFFFFFFFFFFFFFFF#72).toNat < 2 :=
  ⟨fun _ => ⟨test_wf_scenario_accepted, rfl⟩, by decide⟩

theorem witness_ResponseFieldsAreTheUnitsRegistersAfterward :
    (∃ t, exec .ddsUp State.reset = .next t) ∧ (∃ t, exec .pllToggle State.reset = .next t) ∧
    ∃ t, exec .pllToggle (unusableAt 0#72) = .next t :=
  ⟨next_of_isNext (by decide), next_of_isNext (by decide), next_of_isNext (by decide)⟩

/-- One command of each failing class that the block raises: step 5 000, DDS.SETF without its parameter, an `op` of 15, and an
unusable unit. -/
theorem witness_FailingCommandChangesNothing :
    Responds (runWord 0x4E0000000000001388#72 State.reset) State.reset .outOfRange ∧
    Responds (runWord 0x040000000000000000#72 State.reset) State.reset .missingParam ∧
    Responds (runWord 0x7C0000000000000000#72 State.reset) State.reset .unknownOp ∧
    Responds (runWord 0x100000000000000000#72 (unusableAt 0#72)) (unusableAt 0#72) .unavailable :=
  ⟨of_answers (by decide), of_answers (by decide), of_answers (by decide), of_answers (by decide)⟩

/-- Two conditions at once: an unusable unit and an unknown `op`; an `op` of 7 on the DDS without a parameter; `op` 6 on the PLL
without one; `op` 3 with one. -/
theorem witness_OutcomeClassPriority :
    Responds (runWord 0x3C0000000000000000#72 (unusableAt 0#72)) (unusableAt 0#72) .unavailable ∧
    Responds (runWord 0x1C0000000000000000#72 State.reset) State.reset .unknownOp ∧
    Responds (runWord 0x580000000000000000#72 State.reset) State.reset .missingParam ∧
    Responds (runWord 0x0E0000000000000000#72 State.reset) State.reset .accepted ∧
    2 ≤ (cmdUnit 0x8A0000000000000001#72).toNat ∧
    cmdUnit 0x3C0000000000000000#72 = UnitSel.code .dds ∧ cmdUnit 0x1C0000000000000000#72 = UnitSel.code .dds ∧
    cmdUnit 0x580000000000000000#72 = UnitSel.code .pll ∧ cmdUnit 0x0E0000000000000000#72 = UnitSel.code .dds :=
  ⟨of_answers (by decide), of_answers (by decide), of_answers (by decide), of_answers (by decide), by decide, by decide⟩

theorem regsInBounds_reset : RegsInBounds State.reset := by
  unfold RegsInBounds
  decide

/-- The values on both sides of each bound. -/
theorem witness_OutOfRangeExactlyWhen :
    RegsInBounds State.reset ∧ usable .dds State.reset = true ∧ usable .pll State.reset = true ∧
    Responds (exec (.ddsSetf 40000001#64) State.reset) State.reset .outOfRange ∧
    Responds (exec (.ddsSetf 40000000#64) State.reset) State.reset .accepted ∧
    Responds (exec (.pllSetf 34999999#64) State.reset) State.reset .outOfRange ∧
    Responds (exec (.pllSetf 4400000001#64) State.reset) State.reset .outOfRange ∧
    Responds (exec (.pllSetpwr 4#64) State.reset) State.reset .outOfRange ∧
    Responds (exec (.pllSetstep 9#64) State.reset) State.reset .outOfRange ∧
    Responds (exec .pllUp State.reset) State.reset .accepted :=
  ⟨regsInBounds_reset, by decide, by decide, of_answers (by decide), of_answers (by decide), of_answers (by decide),
    of_answers (by decide), of_answers (by decide), of_answers (by decide), of_answers (by decide)⟩

/-- The states at which PLL.UP and PLL.DOWN are out of range with their registers in bounds. -/
theorem witness_OutOfRangeExactlyWhen_steps :
    RegsInBounds (pllAt 4400000000 10 3 true 0#72) ∧ RegsInBounds (pllAt 35000000 10 3 true 0#72) ∧
    Responds (exec .pllUp (pllAt 4400000000 10 3 true 0#72)) (pllAt 4400000000 10 3 true 0#72) .outOfRange ∧
    Responds (exec .pllDown (pllAt 35000000 10 3 true 0#72)) (pllAt 35000000 10 3 true 0#72) .outOfRange :=
  ⟨by unfold RegsInBounds; decide, by unfold RegsInBounds; decide, of_answers (by decide), of_answers (by decide)⟩

/-! #### The commands: the hypotheses of each result statement, and a word of its row -/

theorem witness_DdsStatusReportsOnly :
    (0x03FFFFFFFFFFFFFFFF#72 : Cmd) &&& 0xFC0000000000000000#72 = 0x000000000000000000#72 ∧ State.reset.ddsUsable = true := by
  decide

theorem witness_DdsSetfStoresOrIgnores :
    (0x070000000000000001#72 : Cmd) &&& 0xFE0000000000000000#72 = 0x060000000000000000#72 ∧ State.reset.ddsUsable = true ∧
    (40000000#64).toNat ≤ 40000000 ∧ (0#64).toNat ≤ 40000000 ∧ 40000000 < (40000001#64).toNat := by decide

theorem witness_DdsUpSaturatesAtTheMaximum :
    (0x0B0000000000000003#72 : Cmd) &&& 0xFE0000000000000001#72 = 0x0A0000000000000001#72 ∧ State.reset.ddsUsable = true := by
  decide

theorem witness_DdsDownSaturatesAtZero :
    (0x0B0000000000000002#72 : Cmd) &&& 0xFE0000000000000001#72 = 0x0A0000000000000000#72 ∧ State.reset.ddsUsable = true := by
  decide

theorem witness_DdsSetstepStoresAnyStep :
    (0x0EFFFFFFFFFFFFFFFF#72 : Cmd) &&& 0xFE0000000000000000#72 = 0x0E0000000000000000#72 ∧ State.reset.ddsUsable = true := by
  decide

theorem witness_DdsEnEnablesAndTransmits :
    (0x130000000000000005#72 : Cmd) &&& 0xFC0000000000000000#72 = 0x100000000000000000#72 ∧ State.reset.ddsUsable = true := by
  decide

theorem witness_DdsDisMutesAndKeepsTheFrequency :
    (0x160000000000000000#72 : Cmd) &&& 0xFC0000000000000000#72 = 0x140000000000000000#72 ∧ State.reset.ddsUsable = true := by
  decide

theorem witness_PllStatusReportsOnly :
    (0x43FFFFFFFFFFFFFFFF#72 : Cmd) &&& 0xFC0000000000000000#72 = 0x400000000000000000#72 ∧ State.reset.pllUsable = true := by
  decide

theorem witness_PllSetfStoresOrIgnores :
    (0x470000000000000001#72 : Cmd) &&& 0xFE0000000000000000#72 = 0x460000000000000000#72 ∧ State.reset.pllUsable = true ∧
    (35000000 ≤ (35000000#64).toNat ∧ (35000000#64).toNat ≤ 4400000000) ∧
    (35000000 ≤ (4400000000#64).toNat ∧ (4400000000#64).toNat ≤ 4400000000) ∧
    (34999999#64).toNat < 35000000 ∧ 4400000000 < (4400000001#64).toNat := by decide

/-- The sum at its upper bound, one above it, and below the lower bound (a state no run reaches). -/
theorem witness_PllUpStepsOrIgnores :
    (0x4B0000000000000001#72 : Cmd) &&& 0xFE0000000000000001#72 = 0x4A0000000000000001#72 ∧
    (∃ s : State, s.pllUsable = true ∧ 35000000 ≤ (s.pll.freq.toNat : Int) + s.pll.step.toNat ∧
      (s.pll.freq.toNat : Int) + s.pll.step.toNat = 4400000000) ∧
    (∃ s : State, s.pllUsable = true ∧ (s.pll.freq.toNat : Int) + s.pll.step.toNat = 4400000001) ∧
    ∃ s : State, s.pllUsable = true ∧ (s.pll.freq.toNat : Int) + s.pll.step.toNat = 34999999 :=
  ⟨by decide, ⟨pllAt 4399999990 10 0 false 0#72, by decide⟩, ⟨pllAt 4399999991 10 0 false 0#72, by decide⟩,
    ⟨pllAt 34999989 10 0 false 0#72, by decide⟩⟩

/-- The difference at its lower bound, one below it, negative, and above the upper bound (a state no run reaches). -/
theorem witness_PllDownStepsOrIgnores :
    (0x4B0000000000000000#72 : Cmd) &&& 0xFE0000000000000001#72 = 0x4A0000000000000000#72 ∧
    (∃ s : State, s.pllUsable = true ∧ (s.pll.freq.toNat : Int) - s.pll.step.toNat = 35000000) ∧
    (∃ s : State, s.pllUsable = true ∧ (s.pll.freq.toNat : Int) - s.pll.step.toNat = 34999999) ∧
    (∃ s : State, s.pllUsable = true ∧ (s.pll.freq.toNat : Int) - s.pll.step.toNat < 0) ∧
    ∃ s : State, s.pllUsable = true ∧ (s.pll.freq.toNat : Int) - s.pll.step.toNat = 4400000001 :=
  ⟨by decide, ⟨pllAt 35000010 10 0 false 0#72, by decide⟩, ⟨pllAt 35000009 10 0 false 0#72, by decide⟩,
    ⟨pllAt 1 10 0 false 0#72, by decide⟩, ⟨pllAt 4400000011 10 0 false 0#72, by decide⟩⟩

theorem witness_PllSetstepStoresOrIgnores :
    (0x4F0000000000000001#72 : Cmd) &&& 0xFE0000000000000000#72 = 0x4E0000000000000000#72 ∧ State.reset.pllUsable = true ∧
    (10#64).toNat ∈ [10, 100, 1000, 10000, 100000, 1000000, 10000000] ∧
    (10000000#64).toNat ∈ [10, 100, 1000, 10000, 100000, 1000000, 10000000] ∧
    (0#64).toNat ∉ [10, 100, 1000, 10000, 100000, 1000000, 10000000] ∧
    (5000#64).toNat ∉ [10, 100, 1000, 10000, 100000, 1000000, 10000000] := by decide

theorem witness_PllEnSetsRfOnAndUpdates :
    (0x530000000000000000#72 : Cmd) &&& 0xFC0000000000000000#72 = 0x500000000000000000#72 ∧ State.reset.pllUsable = true := by
  decide

theorem witness_PllDisClearsRfOnAndUpdates :
    (0x560000000000000000#72 : Cmd) &&& 0xFC0000000000000000#72 = 0x540000000000000000#72 ∧ State.reset.pllUsable = true ∧
    exp1.WellFormed := by decide

theorem witness_PllSetpwrStoresOrIgnores :
    (0x5B0000000000000003#72 : Cmd) &&& 0xFE0000000000000000#72 = 0x5A0000000000000000#72 ∧ State.reset.pllUsable = true ∧
    (3#64).toNat ≤ 3 ∧ 4 ≤ (4#64).toNat ∧ 4 ≤ (0x8000000000000000#64).toNat := by decide

theorem witness_PllToggleInvertsRfOnAndUpdates :
    (0x5F0000000000000000#72 : Cmd) &&& 0xFC0000000000000000#72 = 0x5C0000000000000000#72 ∧ State.reset.pllUsable = true := by
  decide

/-! #### The pure functions -/

theorem witness_RoundingIsFloorOfHalfMore : 0 < 2 ∧ 0 < 1 ∧ roundHu 1 2 = 1 ∧ roundHu 7 1 = 7 := by decide

theorem witness_TuningWordIsTheRoundedRatio : Config.scenario.RefsPositive ∧ exp1.RefsPositive := by decide

/-- A reference that needs no reduction in the whole domain, and one that does. -/
theorem witness_TuningWordWrapsModulo :
    (Config.scenario.RefsPositive ∧ Config.scenario.ddsScale = 2 ^ 32 ∧ (40000000#64).toNat ≤ 40000000 ∧
      (40000000005 / 1000 : ℚ) < (Config.scenario.ddsRefNum : ℚ) / (Config.scenario.ddsRefDen : ℚ)) ∧
    { Config.scenario with ddsRefNum := 3000000 }.RefsPositive := by
  refine ⟨⟨by decide, by decide, by decide, ?_⟩, by decide⟩
  norm_num [Config.scenario]

theorem witness_TuningIncrementIsMonotoneAndClose :
    Config.scenario.RefsPositive ∧ Config.scenario.ddsScale = 2 ^ 32 ∧ Config.scenario.ddsRefDen = 1 ∧ 0 ≤ 40000000 := by decide

theorem witness_VcoStaysInItsBand :
    (35000000 ≤ 35000000 ∧ 35000000 ≤ 4400000000) ∧ (35000000 ≤ 4400000000 ∧ 4400000000 ≤ 4400000000) ∧
    (35000000 ≤ 68749999 ∧ 68749999 < 68750000) ∧ pllVco 35000000 = 2240000000 ∧ pllVco 4400000000 = 4400000000 := by decide

theorem witness_IntegerDividerIsTheFloor :
    Config.scenario.RefsPositive ∧ (35000000 ≤ 35000000 ∧ 35000000 ≤ 4400000000) ∧ 35000000 ≤ 4400000000 := by decide

theorem witness_FractionIsTheRoundedRemainder : Config.scenario.RefsPositive := by decide

theorem witness_FractionCanEqualTheModulus :
    Config.scenario.RefsPositive ∧ Config.scenario.pllRefHz = 8000000 ∧
    pllFrac Config.scenario (pllVco (68749999#64).toNat) = 4095 ∧
    pllFrac Config.scenario (pllVco (433920000#64).toNat) ≠ 4095 := by decide

theorem witness_WordZeroFields :
    (Config.scenario.RefsPositive ∧ 35000000 ≤ (35000000#64).toNat ∧ (4400000000#64).toNat ≤ 4400000000 ∧
      33570 ≤ Config.scenario.pllRefHz) ∧
    { Config.scenario with pllRefHz := 33570 }.RefsPositive := by decide

/-- A bit of each branch of word 1 under EXP1: the prescaler bit, both ends of MOD, an address bit, a fixed bit, bit 31. -/
theorem witness_WordOneFields :
    exp1.WellFormed ∧ exp1.pllPrescBit = 27 ∧ exp1.pllModLsb = 3 ∧ exp1.pllModLsb + 11 = 14 ∧ 2 < 3 ∧
    exp1.pllR1Fixed.getLsbD 15 = true ∧ 31 < 32 := by decide

/-- A bit of each branch of word 4 under EXP1: both ends of the divider and the power field, the enable bit, an address bit, a
fixed bit. -/
theorem witness_WordFourFields :
    exp1.WellFormed ∧ exp1.pllRfdivLsb = 20 ∧ exp1.pllRfdivLsb + 2 = 22 ∧ exp1.pllRfenBit = 5 ∧ exp1.pllPwrLsb = 3 ∧
    exp1.pllPwrLsb + 1 = 4 ∧ exp1.pllR4Fixed.getLsbD 23 = true ∧ 31 < 32 := by decide

theorem witness_FixedWordsAreConstants : exp1.WellFormed ∧ Config.scenario.WellFormed :=
  ⟨test_wf_exp1_accepted, test_wf_scenario_accepted⟩

theorem witness_AddressFieldIsTheIndex : exp1.WellFormed ∧ Config.scenario.WellFormed :=
  ⟨test_wf_exp1_accepted, test_wf_scenario_accepted⟩

/-! #### The invariants and the whole-machine rules -/

theorem witness_ResetTakesTheParameters : Config.scenario.WellFormed := test_wf_scenario_accepted

theorem witness_EveryStepKeepsRegistersInBounds :
    Config.scenario.WellFormed ∧ State.reset.ddsUsable = true ∧ RegsInBounds (present 0x4A0000000000000001#72 State.reset) ∧
    ∃ t, step (present 0x4A0000000000000001#72 State.reset) = .next t :=
  ⟨by decide, rfl, by unfold RegsInBounds; decide, next_of_isNext (by decide)⟩

theorem witness_EveryStepKeepsConfigurationAndStraps :
    StrapsAsBuilt (present 0x500000000000000000#72 State.reset) ∧
    ∃ t, step (present 0x500000000000000000#72 State.reset) = .next t :=
  ⟨⟨rfl, rfl⟩, next_of_isNext (by decide)⟩

/-- A state whose log holds the frame of the stored frequency, and the word that disables the unit. -/
def ddsSent : State :=
  { ddsAt 7100000 1000 true 0x140000000000000000#72 with txlog := [ddsFrame (ddsTuningWord Config.scenario 7100000#64)] }

theorem witness_EveryStepKeepsTheDdsChipInAgreement :
    ddsStream ddsSent.txlog ≠ [] ∧ DdsChipAgrees ddsSent ∧ ∃ t, step ddsSent = .next t := by
  refine ⟨by decide, fun e he => ?_, next_of_isNext (by decide)⟩
  have h : (ddsStream ddsSent.txlog).getLast? = some (ddsFrame (ddsTuningWord Config.scenario 7100000#64)) := rfl
  rw [h] at he
  exact (Option.some.inj he).symm

/-- A state whose log holds the transmission of the stored PLL registers, and the word that toggles the output. -/
def pllSent : State :=
  { pllAt 433920000 10000000 0 true 0x5C0000000000000000#72 with
    txlog := pllTransmit (pllEncode Config.scenario 433920000#64 true 0#2) }

theorem witness_EveryStepKeepsThePllChipInAgreement :
    pllStream pllSent.txlog ≠ [] ∧ PllChipAgrees pllSent ∧ ∃ t, step pllSent = .next t :=
  ⟨by decide, fun _ => List.suffix_rfl, next_of_isNext (by decide)⟩

theorem witness_EveryStepKeepsTransmissionsWhole :
    LogOfWholeTransmissions pllSent.txlog ∧ pllSent.txlog ≠ [] ∧ ∃ t, step pllSent = .next t :=
  ⟨⟨[.pll (pllEncode Config.scenario 433920000#64 true 0#2)], rfl, by
      intro t ht
      rw [List.mem_singleton] at ht
      subst ht
      show ∀ i : Fin 6, _
      decide⟩, by decide, next_of_isNext (by decide)⟩

theorem witness_LogsOnlyGrow : (∃ t, step pllSent = .next t) ∧ ∃ t, step State.reset = .next t :=
  ⟨next_of_isNext (by decide), next_of_isNext (by decide)⟩

theorem witness_LogsAreWriteOnly : ∃ t, step { ddsSent with txlog := [], rsplog := [] } = .next t :=
  next_of_isNext (by decide)

theorem witness_UnitsAreIsolated :
    (Instr.ddsDis.unit = .dds ∧ ∃ t, exec .ddsDis pllSent = .next t) ∧
    (Instr.pllToggle.unit = .pll ∧ ∃ t, exec .pllToggle ddsSent = .next t) :=
  ⟨⟨rfl, next_of_isNext (by decide)⟩, rfl, next_of_isNext (by decide)⟩

theorem witness_FlagsAreWrittenByTheirCommandsAlone :
    ((∃ t, exec .ddsEn State.reset = .next t) ∧ usable Instr.ddsEn.unit State.reset = true) ∧
    (∃ t, exec .pllToggle State.reset = .next t) ∧ usable Instr.pllToggle.unit State.reset = true :=
  ⟨⟨next_of_isNext (by decide), by decide⟩, next_of_isNext (by decide), by decide⟩

theorem witness_StreamsReachedByEachCommand :
    Responds (exec .ddsDis State.reset) State.reset .accepted ∧
    Responds (exec (.pllSetpwr 4#64) State.reset) State.reset .outOfRange :=
  ⟨of_answers (by decide), of_answers (by decide)⟩

end Sys2Proof.Tests
end

section
/-! Rounding against the rationals (spec 00 R13). -/

namespace Sys2Proof.Proofs.Rounding

open Sys2Proof.Machine

/-- Adding a half to `n / d` gives the quotient of the two naturals that `roundHu` divides. -/
theorem ratio_add_half_eq (n : Nat) {d : Nat} (h : 0 < d) :
    (n : ℚ) / d + 1 / 2 = ((2 * n + d : ℕ) : ℚ) / ((2 * d : ℕ) : ℚ) := by
  have hd : (d : ℚ) ≠ 0 := by exact_mod_cast h.ne'
  push_cast
  field_simp

/-- The model's integer rounding is the spec's rounding of the exact rational (R13). -/
theorem roundHu_eq_floor (n : Nat) {d : Nat} (h : 0 < d) :
    ((roundHu n d : ℕ) : ℤ) = ⌊(n : ℚ) / d + 1 / 2⌋ :=
  calc ((roundHu n d : ℕ) : ℤ)
    _ = ((2 * n + d : ℕ) : ℤ) / ((2 * d : ℕ) : ℤ) := Int.natCast_div _ _
    _ = ⌊((2 * n + d : ℕ) : ℚ) / ((2 * d : ℕ) : ℚ)⌋ := (Rat.floor_natCast_div_natCast _ _).symm
    _ = ⌊(n : ℚ) / d + 1 / 2⌋ := by rw [ratio_add_half_eq n h]

/-- Settles O32: over the common denominator `2 * d`, the floor of `n / d + 1 / 2` is the division of naturals that
`roundHu` is. -/
theorem roundingIsFloorOfHalfMore : Obligations.RoundingIsFloorOfHalfMore :=
  fun n _ h => roundHu_eq_floor n h

end Sys2Proof.Proofs.Rounding
end

section
/-! The bounds of the registers, the configuration and the straps: at reset and over every step (spec 10 R22, R23, R26, R27,
R31). -/

namespace Sys2Proof.Proofs.StateInvariants

open Sys2Proof.Machine

/-! ### Reset -/

/-- The state after reset of an accepted configuration has its registers in their bounds (R31). -/
theorem regsInBounds_ofCfg {c : Cfg} (h : c.WellFormed) : RegsInBounds (State.ofCfg c) := by
  obtain ⟨-, -, -, -, -, -, hreset⟩ := h
  exact hreset

/-- Settles O49: the registers and the straps are the fields reset fills in, and the constraints are the bounds of the reset
state's registers. -/
theorem resetTakesTheParameters : Obligations.ResetTakesTheParameters := by
  intro c
  refine ⟨rfl, rfl, rfl, rfl, rfl, rfl, rfl, rfl, rfl, rfl, fun h => ?_⟩
  obtain ⟨hdds, ⟨hlo, hhi⟩, hstep⟩ := regsInBounds_ofCfg h
  exact ⟨hdds, hlo, hhi, hstep⟩

/-! ### The frequencies the commands compute -/

/-- An integer in the range of 64 bits is stored as it is. -/
theorem toNat_ofInt_of_bounds {n : Int} (h0 : 0 ≤ n) (h : n < 2 ^ 64) : (BitVec.ofInt 64 n).toNat = n.toNat := by
  rw [BitVec.toNat_ofInt]
  exact congrArg Int.toNat (Int.emod_eq_of_lt h0 h)

/-- DDS.UP stores at most `DDS_FMAX`, whatever the step (42 R132). -/
theorem ddsClampHigh_stepUp_le (freq step : Hz) : (ddsClampHigh (stepUp freq step)).toNat ≤ Config.ddsFmax := by
  unfold ddsClampHigh stepUp Config.ddsFmax
  rw [toNat_ofInt_of_bounds] <;> omega

/-- DDS.DOWN stores at most the frequency it started from, whatever the step (42 R133). -/
theorem ddsClampLow_stepDown_le (freq step : Hz) : (ddsClampLow (stepDown freq step)).toNat ≤ freq.toNat := by
  have := freq.isLt
  unfold ddsClampLow stepDown
  rw [toNat_ofInt_of_bounds] <;> omega

/-- A frequency that passes the PLL's test is stored inside the PLL's bounds (43 R151 to R153). -/
theorem toNat_ofInt_of_pllFreqInRange {n : Int} (h : pllFreqInRange n = true) :
    Config.pllFmin ≤ (BitVec.ofInt 64 n).toNat ∧ (BitVec.ofInt 64 n).toNat ≤ Config.pllFmax := by
  have h := of_decide_eq_true h
  unfold Config.pllFmin Config.pllFmax at *
  rw [toNat_ofInt_of_bounds] <;> omega

/-! ### The bounds over a rule and over a step -/

theorem regsInBounds_ddsStoreFreq {f : Hz} {s : State} (hs : RegsInBounds s) (hf : f.toNat ≤ Config.ddsFmax) :
    RegsInBounds (ddsStoreFreq f s).2 := by
  rw [ddsStoreFreq_eq]
  exact ⟨hf, hs.2⟩

theorem regsInBounds_pllStoreFreq (n : Int) {s : State} (hs : RegsInBounds s) :
    RegsInBounds (pllStoreFreq n s).2 := by
  rcases pllStoreFreq_cases n s with ⟨hn, h⟩ | ⟨-, h⟩ <;> rw [h]
  · obtain ⟨hdds, -, hstep⟩ := hs
    exact ⟨hdds, toNat_ofInt_of_pllFreqInRange hn, hstep⟩
  · exact hs

/-- Every command's rule keeps the registers in their bounds. -/
theorem regsInBounds_ruleOf (i : Instr) {s : State} (hs : RegsInBounds s) : RegsInBounds (ruleOf i s).2 := by
  cases i with
  | ddsSetf arg =>
    simp only [ruleOf]
    split
    next h => exact regsInBounds_ddsStoreFreq hs (of_decide_eq_true h)
    next => exact hs
  | ddsUp => exact regsInBounds_ddsStoreFreq hs (ddsClampHigh_stepUp_le _ _)
  | ddsDown => exact regsInBounds_ddsStoreFreq hs ((ddsClampLow_stepDown_le _ _).trans hs.1)
  | pllSetf | pllUp | pllDown => exact regsInBounds_pllStoreFreq _ hs
  | pllSetstep arg =>
    simp only [ruleOf]
    split
    next h =>
      obtain ⟨hdds, hpll, -⟩ := hs
      exact ⟨hdds, hpll, of_decide_eq_true h⟩
    next => exact hs
  | pllSetpwr arg =>
    simp only [ruleOf]
    split <;> exact hs
  | ddsStatus | ddsSetstep | ddsEn | ddsDis | pllStatus | pllEn | pllDis | pllToggle => exact hs

/-- A step keeps the registers in their bounds: a wait and an answer touch no register, a rule keeps them. -/
theorem regsInBounds_step {s t : State} (hs : RegsInBounds s) (h : step s = .next t) : RegsInBounds t := by
  rcases (step_effects h).2 with ⟨-, rfl⟩ | ⟨w, rest, -, ⟨u, cls, rfl⟩ | ⟨i, -, -, rfl⟩⟩
  · exact hs
  · exact hs
  · exact regsInBounds_ruleOf i (s := { s with host := rest }) hs

/-- Settles O51: the reset clause is the configuration's own check, the step clause goes through the rule of each command, and
DDS.SETSTEP stores whatever it is given. -/
theorem everyStepKeepsRegistersInBounds : Obligations.EveryStepKeepsRegistersInBounds :=
  ⟨fun _ hc => regsInBounds_ofCfg hc, fun _ _ hs h => regsInBounds_step hs h,
    fun _ _ hu => ⟨_, exec_of_ddsUsable hu rfl, rfl⟩⟩

/-! ### The configuration and the straps -/

/-- A step writes neither the configuration nor a strap: no rule does. -/
theorem cfg_and_straps_step {s t : State} (h : step s = .next t) :
    t.cfg = s.cfg ∧ t.ddsUsable = s.ddsUsable ∧ t.pllUsable = s.pllUsable := by
  rcases (step_effects h).2 with ⟨-, rfl⟩ | ⟨w, rest, -, ⟨u, cls, rfl⟩ | ⟨i, -, -, rfl⟩⟩
  · exact ⟨rfl, rfl, rfl⟩
  · exact ⟨rfl, rfl, rfl⟩
  · have hf := ruleOf_frame i { s with host := rest }
    exact ⟨hf.cfg, hf.ddsUsable, hf.pllUsable⟩

/-- Settles O52: the straps agree with the configuration after a step because all three are what they were. -/
theorem everyStepKeepsConfigurationAndStraps : Obligations.EveryStepKeepsConfigurationAndStraps := by
  refine ⟨fun _ => ⟨rfl, rfl⟩, fun s t h => ?_⟩
  obtain ⟨hcfg, hdds, hpll⟩ := cfg_and_straps_step h
  refine ⟨hcfg, hdds, hpll, fun hs => ?_⟩
  rwa [StrapsAsBuilt, hcfg, hdds, hpll]

end Sys2Proof.Proofs.StateInvariants
end

section
/-! What a command does not read: a change of the state that a unit's commands commute with. The contents of the logs
(spec 10 R29) and the other unit's registers (R33) are two such changes. -/

namespace Sys2Proof.Proofs.Noninterference

open Sys2Proof.Machine

/-- `φ` changes only what unit `u`'s commands do not read: its strap, its responses and its rules commute with `φ`. -/
structure Unread (u : UnitSel) (φ : State → State) : Prop where
  usable (s : State) : usable u (φ s) = usable u s
  respond (cls : OutcomeClass) (s : State) : respond u cls (φ s) = φ (respond u cls s)
  rule (i : Instr) (s : State) : i.unit = u → ruleOf i (φ s) = ((ruleOf i s).1, φ (ruleOf i s).2)

/-- The command frame commutes with a change its unit does not read, if the rule inside it does. -/
theorem Unread.runCommand {u : UnitSel} {φ : State → State} (hφ : Unread u φ) {rule : State → OutcomeClass × State}
    {s t : State} (hrule : rule (φ s) = ((rule s).1, φ (rule s).2)) (h : runCommand u rule s = .next t) :
    runCommand u rule (φ s) = .next (φ t) := by
  rcases runCommand_cases h with ⟨hu, rfl⟩ | ⟨hu, rfl⟩
  · rw [runCommand_of_usable _ ((hφ.usable s).trans hu), hrule, hφ.respond]
  · rw [runCommand_of_unusable _ ((hφ.usable s).trans hu), hφ.respond]

theorem Unread.exec {i : Instr} {φ : State → State} (hφ : Unread i.unit φ) {s t : State} (h : exec i s = .next t) :
    exec i (φ s) = .next (φ t) := by
  rw [exec_eq_runCommand] at h ⊢
  exact hφ.runCommand (hφ.rule i s rfl) h

/-- One presented word commutes with a change neither unit reads: a word that is no command only answers. -/
theorem runWord_of_unread {φ : State → State} (hφ : ∀ u, Unread u φ) {w : Cmd} {s t : State}
    (h : runWord w s = .next t) : runWord w (φ s) = .next (φ t) := by
  unfold runWord at h ⊢
  split at h
  · exact (hφ _).exec h
  · exact (hφ _).runCommand rfl h
  · exact (hφ _).runCommand rfl h
  · cases h

/-! ### The logs -/

/-- `s` with `log` and `rsps` in front of what its two logs hold. -/
def prependLogs (log : List TxEvent) (rsps : List Response) (s : State) : State :=
  { s with txlog := log ++ s.txlog, rsplog := rsps ++ s.rsplog }

theorem respond_prependLogs (log : List TxEvent) (rsps : List Response) (u : UnitSel) (cls : OutcomeClass) (s : State) :
    respond u cls (prependLogs log rsps s) = prependLogs log rsps (respond u cls s) := by
  cases u <;> simp [respond, prependLogs, snapshot]

theorem tx_prependLogs {log : List TxEvent} {rsps : List Response} {s s' : State} (h : s' = prependLogs log rsps s)
    (events : List TxEvent) : tx events s' = prependLogs log rsps (tx events s) := by
  simp [h, tx, prependLogs]

theorem ddsStoreFreq_prependLogs (log : List TxEvent) (rsps : List Response) (f : Hz) (s : State) :
    ddsStoreFreq f (prependLogs log rsps s) = ((ddsStoreFreq f s).1, prependLogs log rsps (ddsStoreFreq f s).2) := by
  simp only [ddsStoreFreq_eq]
  exact Prod.ext rfl (tx_prependLogs (by rfl) _)

theorem pllStoreFreq_prependLogs (log : List TxEvent) (rsps : List Response) (n : Int) (s : State) :
    pllStoreFreq n (prependLogs log rsps s) = ((pllStoreFreq n s).1, prependLogs log rsps (pllStoreFreq n s).2) := by
  cases h : pllFreqInRange n
  · simp only [pllStoreFreq_outOfRange _ h]
  · simp only [pllStoreFreq_inRange _ h]
    exact Prod.ext rfl (tx_prependLogs (by rfl) _)

theorem ruleOf_prependLogs (log : List TxEvent) (rsps : List Response) (i : Instr) (s : State) :
    ruleOf i (prependLogs log rsps s) = ((ruleOf i s).1, prependLogs log rsps (ruleOf i s).2) := by
  cases i with
  | ddsSetf arg =>
    simp only [ruleOf]
    split
    · exact ddsStoreFreq_prependLogs log rsps arg s
    · rfl
  | ddsUp | ddsDown => exact ddsStoreFreq_prependLogs log rsps _ s
  | pllSetf | pllUp | pllDown => exact pllStoreFreq_prependLogs log rsps _ s
  | pllSetstep arg =>
    simp only [ruleOf]
    split <;> rfl
  | pllSetpwr arg =>
    simp only [ruleOf]
    split
    · exact Prod.ext rfl (tx_prependLogs (by rfl) _)
    · rfl
  | ddsEn | ddsDis | pllEn | pllDis | pllToggle => exact Prod.ext rfl (tx_prependLogs (by rfl) _)
  | ddsStatus | ddsSetstep | pllStatus => rfl

theorem unread_prependLogs (log : List TxEvent) (rsps : List Response) (u : UnitSel) :
    Unread u (prependLogs log rsps) where
  usable _ := by cases u <;> rfl
  respond cls s := respond_prependLogs log rsps u cls s
  rule i s _ := ruleOf_prependLogs log rsps i s

theorem step_prependLogs (log : List TxEvent) (rsps : List Response) {s t : State} (h : step s = .next t) :
    step (prependLogs log rsps s) = .next (prependLogs log rsps t) := by
  obtain ⟨hw, ⟨hhost, rfl⟩ | ⟨w, rest, hhost, h⟩⟩ := step_cases h
  · simp [step, serveHost, prependLogs, hw, hhost]
  · rw [step_of_host (s := prependLogs log rsps s) hw hhost]
    exact runWord_of_unread (unread_prependLogs log rsps) h

/-- Settles O57: a state with other log contents is the one with empty logs and those contents in front, and a step commutes
with putting them there. -/
theorem logsAreWriteOnly : Obligations.LogsAreWriteOnly := by
  intro s t log rsps h
  simpa [prependLogs] using step_prependLogs log rsps h

/-! ### The other unit's registers -/

/-- `s` with the PLL unit's registers set to `p`. -/
def withPll (p : PllRegs) (s : State) : State := { s with pll := p }

/-- `s` with the DDS unit's registers set to `d`. -/
def withDds (d : DdsRegs) (s : State) : State := { s with dds := d }

theorem ddsStoreFreq_withPll (p : PllRegs) (f : Hz) (s : State) :
    ddsStoreFreq f (withPll p s) = ((ddsStoreFreq f s).1, withPll p (ddsStoreFreq f s).2) := by
  simp only [ddsStoreFreq_eq]
  rfl

theorem ruleOf_withPll (p : PllRegs) {i : Instr} (s : State) (h : i.unit = .dds) :
    ruleOf i (withPll p s) = ((ruleOf i s).1, withPll p (ruleOf i s).2) := by
  cases i with
  | ddsSetf arg =>
    simp only [ruleOf]
    split
    · exact ddsStoreFreq_withPll p arg s
    · rfl
  | ddsUp | ddsDown => exact ddsStoreFreq_withPll p _ s
  | ddsStatus | ddsSetstep | ddsEn | ddsDis => rfl
  | _ => cases h

theorem unread_withPll (p : PllRegs) : Unread .dds (withPll p) where
  usable _ := rfl
  respond _ _ := rfl
  rule _ s h := ruleOf_withPll p s h

theorem pllStoreFreq_withDds (d : DdsRegs) (n : Int) (s : State) :
    pllStoreFreq n (withDds d s) = ((pllStoreFreq n s).1, withDds d (pllStoreFreq n s).2) := by
  cases h : pllFreqInRange n
  · simp only [pllStoreFreq_outOfRange _ h]
  · simp only [pllStoreFreq_inRange _ h]
    rfl

theorem ruleOf_withDds (d : DdsRegs) {i : Instr} (s : State) (h : i.unit = .pll) :
    ruleOf i (withDds d s) = ((ruleOf i s).1, withDds d (ruleOf i s).2) := by
  cases i with
  | pllSetf | pllUp | pllDown => exact pllStoreFreq_withDds d _ s
  | pllSetstep arg | pllSetpwr arg =>
    simp only [ruleOf]
    split <;> rfl
  | pllStatus | pllEn | pllDis | pllToggle => rfl
  | _ => cases h

theorem unread_withDds (d : DdsRegs) : Unread .pll (withDds d) where
  usable _ := rfl
  respond _ _ := rfl
  rule _ s h := ruleOf_withDds d s h

/-- A DDS command writes no PLL register and adds nothing to the PLL stream. -/
theorem exec_dds_leaves_pll {i : Instr} {s t : State} (hi : i.unit = .dds) (h : exec i s = .next t) :
    t.pll = s.pll ∧ pllStream t.txlog = pllStream s.txlog := by
  rcases exec_cases h with ⟨-, rfl⟩ | ⟨-, rfl⟩
  · obtain ⟨hpll, ws, hlog⟩ := ruleOf_dds s hi
    refine ⟨hpll, ?_⟩
    rw [respond_txlog, hlog, pllStream_append, pllStream_frames, List.append_nil]
  · exact ⟨rfl, rfl⟩

/-- A PLL command writes no DDS register and adds nothing to the DDS stream. -/
theorem exec_pll_leaves_dds {i : Instr} {s t : State} (hi : i.unit = .pll) (h : exec i s = .next t) :
    t.dds = s.dds ∧ ddsStream t.txlog = ddsStream s.txlog := by
  rcases exec_cases h with ⟨-, rfl⟩ | ⟨-, rfl⟩
  · obtain ⟨hdds, hlog⟩ := ruleOf_pll s hi
    refine ⟨hdds, ?_⟩
    rw [respond_txlog]
    rcases hlog with hlog | hlog <;> rw [hlog]
    rw [ddsStream_append, currentPllTransmission, ddsStream_pllTransmit, List.append_nil]
  · exact ⟨rfl, rfl⟩

/-- Settles O58: a rule writes its own unit's registers and stream, and commutes with any change of the other unit's
registers. -/
theorem unitsAreIsolated : Obligations.UnitsAreIsolated := by
  constructor
  · intro i s t hi h
    obtain ⟨hpll, hstream⟩ := exec_dds_leaves_pll hi h
    exact ⟨hpll, hstream, fun p => (hi ▸ unread_withPll p : Unread i.unit (withPll p)).exec h⟩
  · intro i s t hi h
    obtain ⟨hdds, hstream⟩ := exec_pll_leaves_dds hi h
    exact ⟨hdds, hstream, fun d => (hi ▸ unread_withDds d : Unread i.unit (withDds d)).exec h⟩

end Sys2Proof.Proofs.Noninterference
end

section
/-! Which commands write the block's two flags (spec 10 R25). -/

namespace Sys2Proof.Proofs.Flags

open Sys2Proof.Machine

theorem ddsStoreFreq_en (f : Hz) (s : State) : (ddsStoreFreq f s).2.dds.en = s.dds.en := by
  rw [ddsStoreFreq_eq, tx_dds]

theorem pllStoreFreq_rfOn (n : Int) (s : State) : (pllStoreFreq n s).2.pll.rfOn = s.pll.rfOn := by
  rcases pllStoreFreq_cases n s with ⟨-, h⟩ | ⟨-, h⟩ <;> rw [h]
  rfl

/-- No rule but those of DDS.EN and DDS.DIS writes `DDS.en`. -/
theorem ruleOf_en {i : Instr} (s : State) (hen : i ≠ .ddsEn) (hdis : i ≠ .ddsDis) :
    (ruleOf i s).2.dds.en = s.dds.en := by
  cases i with
  | ddsSetf arg =>
    simp only [ruleOf]
    split
    · exact ddsStoreFreq_en arg s
    · rfl
  | ddsUp | ddsDown => exact ddsStoreFreq_en _ s
  | ddsStatus | ddsSetstep => rfl
  | ddsEn => exact absurd rfl hen
  | ddsDis => exact absurd rfl hdis
  | _ => exact congrArg DdsRegs.en (ruleOf_pll s rfl).1

/-- No rule but those of PLL.EN, PLL.DIS and PLL.TOGGLE writes `PLL.rf_on`. -/
theorem ruleOf_rfOn {i : Instr} (s : State) (hen : i ≠ .pllEn) (hdis : i ≠ .pllDis) (htoggle : i ≠ .pllToggle) :
    (ruleOf i s).2.pll.rfOn = s.pll.rfOn := by
  cases i with
  | pllSetf | pllUp | pllDown => exact pllStoreFreq_rfOn _ s
  | pllSetstep arg | pllSetpwr arg =>
    simp only [ruleOf]
    split <;> rfl
  | pllStatus => rfl
  | pllEn => exact absurd rfl hen
  | pllDis => exact absurd rfl hdis
  | pllToggle => exact absurd rfl htoggle
  | _ => exact congrArg PllRegs.rfOn (ruleOf_dds s rfl).1

/-- Settles O59: on a usable unit the flags are what the command's rule leaves in them. -/
theorem flagsAreWrittenByTheirCommandsAlone : Obligations.FlagsAreWrittenByTheirCommandsAlone := by
  intro i s t h hu
  rw [exec_of_usable hu] at h
  cases h
  rw [respond_dds, respond_pll]
  constructor
  · split
    · rfl
    · rfl
    next hen hdis => exact ruleOf_en s hen hdis
  · split
    · rfl
    · rfl
    · rfl
    next hen hdis htoggle => exact ruleOf_rfOn s hen hdis htoggle

end Sys2Proof.Proofs.Flags
end

section
/-! The transmit log: what a transmission is made of (spec 20 R42, R43, R48), what each command adds to the log (R40, R47), and
how a step extends it (R46, R50). -/

namespace Sys2Proof.Proofs.TransmitLog

open Sys2Proof.Machine

/-! ### The address field of the register words (20 R48) -/

/-- A field that starts at bit 3 or above leaves the address bits 0. -/
theorem shiftLeft_and_seven (x : Word32) {lsb : Nat} (h : 3 ≤ lsb) : x <<< lsb &&& 7#32 = 0#32 := by
  apply BitVec.eq_of_getLsbD_eq
  intro b hb
  rw [BitVec.getLsbD_and, BitVec.getLsbD_shiftLeft, show 7#32 = fieldMask 0 3 from rfl, getLsbD_fieldMask 0 3 b hb]
  by_cases hb3 : b < 3
  · simp [show b < lsb by omega]
  · simp [hb3]

theorem ofNat_shiftLeft (n lsb : Nat) : BitVec.ofNat 32 (n <<< lsb) = BitVec.ofNat 32 n <<< lsb := by
  apply BitVec.eq_of_toNat_eq
  simp [Nat.shiftLeft_eq]

theorem pllWord0_eq_shifts (int frac : Nat) :
    pllWord0 int frac = BitVec.ofNat 32 int <<< 15 ||| BitVec.ofNat 32 frac <<< 3 := by
  rw [pllWord0, BitVec.ofNat_or, ofNat_shiftLeft, ofNat_shiftLeft]

/-- Each register word carries its own index in its low three bits: its fields start at bit 3 or above, and its fixed
constant is 0 below. -/
theorem pllEncode_word_address {c : Cfg} (hc : c.WellFormed) (f : Hz) (e : Bool) (p : BitVec 2) (i : Fin 6) :
    (pllEncode c f e p).word i &&& 7#32 = BitVec.ofNat 32 i.val := by
  obtain ⟨-, ⟨⟨hpresc, -⟩, ⟨hmod, -⟩, ⟨hrfdiv, -⟩, ⟨hrfen, -⟩, ⟨hpwr, -⟩⟩, -, ⟨h1, h2, h3, h4, h5⟩, -⟩ := hc
  fin_cases i
  · simp [PllWords.word, pllEncode, pllWord0_eq_shifts, BitVec.and_or_distrib_right, shiftLeft_and_seven]
  · simp [PllWords.word, pllEncode, pllWord1, BitVec.and_or_distrib_right, shiftLeft_and_seven, h1, hpresc, hmod]
  · simp [PllWords.word, pllEncode, pllWord2, BitVec.and_or_distrib_right, h2]
  · simp [PllWords.word, pllEncode, pllWord3, BitVec.and_or_distrib_right, h3]
  · simp [PllWords.word, pllEncode, pllWord4, BitVec.and_or_distrib_right, shiftLeft_and_seven, h4, hrfdiv, hrfen, hpwr]
  · simp [PllWords.word, pllEncode, pllWord5, BitVec.and_or_distrib_right, h5]

/-! ### Whole transmissions (20 R46) -/

theorem currentPllTransmission_whole {s : State} (hc : s.cfg.WellFormed) :
    ∃ x : Transmission, x.events = currentPllTransmission s ∧ x.Addressed :=
  ⟨.pll _, rfl, pllEncode_word_address hc _ _ _⟩

/-- What a command's rule appends is whole transmissions, correctly addressed. -/
theorem ruleOf_transmits (i : Instr) {s : State} (hc : s.cfg.WellFormed) :
    ∃ ts : List Transmission,
      (ruleOf i s).2.txlog = s.txlog ++ ts.flatMap Transmission.events ∧ ∀ x ∈ ts, x.Addressed := by
  cases hu : i.unit with
  | dds =>
    obtain ⟨-, ws, hlog⟩ := ruleOf_dds s hu
    refine ⟨ws.map .dds, ?_, ?_⟩
    · rw [hlog, List.flatMap_map]
      exact congrArg (s.txlog ++ ·) List.map_eq_flatMap
    · simp [Transmission.Addressed]
  | pll =>
    rcases (ruleOf_pll s hu).2 with hlog | hlog
    · exact ⟨[], by simp [hlog], by simp⟩
    · have hc' : (ruleOf i s).2.cfg.WellFormed := by rwa [(ruleOf_frame i s).cfg]
      obtain ⟨x, hx, haddr⟩ := currentPllTransmission_whole hc'
      exact ⟨[x], by rw [hlog, List.flatMap_singleton, hx], List.forall_mem_singleton.mpr haddr⟩

/-- What a step appends to the log is whole transmissions, correctly addressed. -/
theorem step_transmits {s t : State} (h : step s = .next t) :
    ∃ ts : List Transmission, t.txlog = s.txlog ++ ts.flatMap Transmission.events ∧ ∀ x ∈ ts, x.Addressed := by
  obtain ⟨hc, ⟨-, rfl⟩ | ⟨w, rest, -, ⟨u, cls, rfl⟩ | ⟨i, -, -, rfl⟩⟩⟩ := step_effects h
  · exact ⟨[], by simp, by simp⟩
  · exact ⟨[], by simp, by simp⟩
  · exact ruleOf_transmits i (s := { s with host := rest }) hc

/-- Settles O55: the transmissions a step appends are put after those the log is made of. -/
theorem everyStepKeepsTransmissionsWhole : Obligations.EveryStepKeepsTransmissionsWhole := by
  rintro s t ⟨before, hlog, hbefore⟩ h
  obtain ⟨sent, hsent, haddr⟩ := step_transmits h
  refine ⟨before ++ sent, ?_, ?_⟩
  · rw [hsent, hlog, List.flatMap_append]
  · exact List.forall_mem_append.mpr ⟨hbefore, haddr⟩

/-! ### The logs grow and the words are taken in order (20 R50) -/

/-- A step waits, or takes the host's first word and adds one response. -/
theorem step_waits_or_answers {s t : State} (h : step s = .next t) :
    (s.host = [] ∧ t = s) ∨ ∃ w r, s.host = w :: t.host ∧ t.rsplog = s.rsplog ++ [r] := by
  rcases (step_effects h).2 with hwait | ⟨w, rest, hhost, ⟨u, cls, rfl⟩ | ⟨i, -, -, rfl⟩⟩
  · exact .inl hwait
  · exact .inr ⟨w, _, hhost, rfl⟩
  · have hf := ruleOf_frame i { s with host := rest }
    exact .inr ⟨w, _, hhost.trans (congrArg (w :: ·) hf.host.symm), congrArg (· ++ [_]) hf.rsplog⟩

/-- Settles O56: a step appends transmissions to the log, and waits or answers one word. -/
theorem logsOnlyGrow : Obligations.LogsOnlyGrow := by
  intro s t h
  obtain ⟨ts, htx, -⟩ := step_transmits h
  refine ⟨⟨_, htx.symm⟩, ?_⟩
  rcases step_waits_or_answers h with ⟨hhost, rfl⟩ | ⟨w, r, hhost, hrsp⟩
  · exact ⟨List.prefix_rfl, .inl ⟨hhost, rfl⟩⟩
  · exact ⟨⟨_, hrsp.symm⟩, .inr ⟨w, hhost⟩⟩

/-! ### What each command sends (20 R40, R47) -/

/-- The zero tuning word is that of frequency 0, whatever the references (40 R93). -/
theorem ddsTuningWord_zero (c : Cfg) : ddsTuningWord c 0#64 = 0#32 := by
  have h : c.ddsRefNum / (2 * c.ddsRefNum) = 0 := by
    rw [Nat.div_eq_zero_iff]
    omega
  simp [ddsTuningWord, ddsIncrement, roundHu, h]

theorem ruleOf_ddsSetf_of_accepted {arg : Hz} {s : State} (h : (ruleOf (.ddsSetf arg) s).1 = .accepted) :
    ruleOf (.ddsSetf arg) s = ddsStoreFreq arg s := by
  simp only [ruleOf] at h ⊢
  split at h
  next hin => rw [if_pos hin]
  next => cases h

theorem ruleOf_pllSetpwr_of_accepted {arg : Hz} {s : State} (h : (ruleOf (.pllSetpwr arg) s).1 = .accepted) :
    ruleOf (.pllSetpwr arg) s = (.accepted, pllUpdate { s with pll := { s.pll with power := arg.setWidth 2 } }) := by
  simp only [ruleOf] at h ⊢
  split at h
  next hin => rw [if_pos hin]
  next => cases h

/-- DDS.SETF, DDS.UP and DDS.DOWN send the frame of the frequency they leave if the unit is Enabled, and nothing otherwise. -/
theorem ddsStoreFreq_txlog (f : Hz) (s : State) :
    (ddsStoreFreq f s).2.txlog =
      s.txlog ++ if s.dds.en then [ddsFrame (ddsTuningWord s.cfg (ddsStoreFreq f s).2.dds.freq)] else [] := by
  rw [ddsStoreFreq_eq]
  rfl

/-- An accepted PLL.SETF, PLL.UP or PLL.DOWN sends the registers it leaves. -/
theorem pllStoreFreq_txlog {n : Int} {s : State} (h : (pllStoreFreq n s).1 = .accepted) :
    (pllStoreFreq n s).2.txlog = s.txlog ++ currentPllTransmission (pllStoreFreq n s).2 := by
  rcases pllStoreFreq_cases n s with ⟨-, heq⟩ | ⟨-, heq⟩ <;> rw [heq] at h ⊢
  · rfl
  · cases h

/-- A response's class is the one the command was answered with. -/
theorem cls_of_respond {u : UnitSel} {cls : OutcomeClass} {s s' : State} {r : Response} (hs : s'.rsplog = s.rsplog)
    (h : (respond u cls s').rsplog = s.rsplog ++ [r]) : r.cls = cls := by
  rw [respond_rsplog, hs, List.append_cancel_left_eq, List.singleton_inj] at h
  rw [← h]

/-- Settles O60: an unusable unit and an ignored request leave the log alone; an accepted command's rule appends what the
list gives it. -/
theorem streamsReachedByEachCommand : Obligations.StreamsReachedByEachCommand := by
  intro i s t r h hr
  rcases exec_cases h with ⟨-, rfl⟩ | ⟨-, rfl⟩
  · rw [cls_of_respond (ruleOf_frame i s).rsplog hr, respond_txlog]
    by_cases hacc : (ruleOf i s).1 = .accepted
    · rw [if_pos hacc]
      cases i with
      | ddsStatus | ddsSetstep | pllStatus => exact (List.append_nil _).symm
      | ddsSetf arg =>
        rw [ruleOf_ddsSetf_of_accepted hacc]
        exact ddsStoreFreq_txlog arg s
      | ddsUp | ddsDown => exact ddsStoreFreq_txlog _ s
      | ddsEn => rfl
      | ddsDis => exact congrArg (s.txlog ++ [ddsFrame ·]) (ddsTuningWord_zero s.cfg)
      | pllSetf | pllUp | pllDown => exact pllStoreFreq_txlog hacc
      | pllSetstep arg =>
        simp only [ruleOf]
        split <;> exact (List.append_nil _).symm
      | pllSetpwr arg =>
        rw [ruleOf_pllSetpwr_of_accepted hacc]
        rfl
      | pllEn | pllDis | pllToggle => rfl
    · rw [if_neg hacc, ruleOf_ignored hacc, List.append_nil]
  · rw [cls_of_respond rfl hr, if_neg (by decide), List.append_nil, respond_txlog]

/-! ### The twelve events of a PLL transmission (20 R42, R43) -/

/-- A transmission is the events of each word in turn, index 5 first. -/
theorem pllTransmit_eq_flatMap (ws : PllWords) :
    pllTransmit ws = ([5, 4, 3, 2, 1, 0] : List (Fin 6)).flatMap fun i => pllWordEvents i (ws.word i) := rfl

/-- Settles O48: the events of a word are its four bytes, byte `k` starting at bit `8 * k`, and a settle. -/
theorem transmissionIsTwelveEvents : Obligations.TransmissionIsTwelveEvents :=
  pllTransmit_eq_flatMap

end Sys2Proof.Proofs.TransmitLog
end

section
/-! Decoding and encoding of the command word (spec 30 R60 to R66, R77, R80): the decoder is a look-up in the rows of the
opcode table, and a command's encoding is its row's pattern with the operand in the `arg` field. -/

namespace Sys2Proof.Proofs.Encoding

open Sys2Proof.Machine

/-! ### Decode after encode -/

/-- Settles O1: a command's word is packed for its unit, and the unit's column gives the command back. -/
theorem decodeInvertsEncode : Obligations.DecodeInvertsEncode := by
  intro i
  cases i with
  | ddsStatus | ddsSetf | ddsUp | ddsDown | ddsSetstep | ddsEn | ddsDis => exact decode_packCmd_dds _ _ _
  | pllStatus | pllSetf | pllUp | pllDown | pllSetstep | pllEn | pllDis | pllSetpwr | pllToggle =>
    exact decode_packCmd_pll _ _ _

/-- Settles O4: the decoder run on each word. -/
theorem writtenWordsDecode : Obligations.WrittenWordsDecode := by
  unfold Obligations.WrittenWordsDecode
  decide

/-! ### The unit's column (30 R62, R65) -/

/-- The column of the opcode map that a unit's words are decoded by (R62). -/
def decodeColumn : UnitSel → BitVec 4 → Bool → Hz → Except Reject Instr
  | .dds => decodeDds
  | .pll => decodePll

theorem decode_of_unit {w : Cmd} {u : UnitSel} (h : cmdUnit w = u.code) :
    decode w = decodeColumn u (cmdOp w) (cmdArgp w) (cmdArg w) := by
  unfold decode
  rw [h]
  cases u <;> rfl

theorem decode_of_no_unit {w : Cmd} (h : 2 ≤ (cmdUnit w).toNat) : decode w = .error (.noSuchUnit (cmdUnit w)) := by
  unfold decode
  split
  · omega
  · omega
  · rfl

theorem exists_unit_of_lt {n : BitVec 2} (h : n.toNat < 2) : ∃ u : UnitSel, n = u.code := by
  obtain h | h : n.toNat = 0 ∨ n.toNat = 1 := by omega
  · exact ⟨.dds, BitVec.eq_of_toNat_eq h⟩
  · exact ⟨.pll, BitVec.eq_of_toNat_eq h⟩

/-- The fields `op`, `argp` and `arg[0]` are those a command's row tests. -/
def Fits (i : Instr) (op : BitVec 4) (argp : Bool) (arg : Hz) : Prop :=
  op = i.rowOp ∧ (i.rowNeedsArgp = true → argp = true) ∧ ∀ d, i.rowDirection = some d → arg.getLsbD 0 = d

/-- The command of the same row whose operand, if it has one, is `a`. -/
def withOperand (a : Hz) : Instr → Instr
  | .ddsSetf _ => .ddsSetf a
  | .ddsSetstep _ => .ddsSetstep a
  | .pllSetf _ => .pllSetf a
  | .pllSetstep _ => .pllSetstep a
  | .pllSetpwr _ => .pllSetpwr a
  | i => i

theorem opcodeRow_withOperand (a : Hz) (i : Instr) : opcodeRow (withOperand a i) = opcodeRow i := by
  cases i <;> rfl

theorem unit_withOperand (a : Hz) (i : Instr) : (withOperand a i).unit = i.unit := by
  cases i <;> rfl

theorem withOperand_eq_self_iff {a : Hz} {i : Instr} : withOperand a i = i ↔ ∀ b, i.operand = some b → b = a := by
  cases i <;> simp [withOperand, Instr.operand, eq_comm]

theorem withOperand_idem (a : Hz) (i : Instr) : withOperand a (withOperand a i) = withOperand a i := by
  cases i <;> rfl

/-- Fields that fit a row are decoded to the row's command. -/
theorem decodeColumn_of_fits {i : Instr} {op : BitVec 4} {argp : Bool} {arg : Hz} (h : Fits i op argp arg) :
    decodeColumn i.unit op argp arg = .ok (withOperand arg i) := by
  obtain ⟨rfl, hargp, hdir⟩ := h
  cases i with
  | ddsStatus | ddsEn | ddsDis | pllStatus | pllEn | pllDis | pllToggle => rfl
  | ddsSetf | ddsSetstep | pllSetf | pllSetstep | pllSetpwr =>
    obtain rfl := hargp rfl
    rfl
  | ddsUp | pllUp =>
    obtain rfl := hargp rfl
    exact congrArg Except.ok (if_pos (hdir true rfl))
  | ddsDown | pllDown =>
    obtain rfl := hargp rfl
    exact congrArg Except.ok (if_neg (Bool.eq_false_iff.mp (hdir false rfl)))

/-- The fields of a DDS word fit a row, or the word is the unit's default no-op (R66). -/
theorem decodeDds_cases (op : BitVec 4) (argp : Bool) (arg : Hz) :
    (∃ i : Instr, i.unit = .dds ∧ Fits i op argp arg) ∨
    decodeDds op argp arg = .error (.unknownOp .dds) ∨ decodeDds op argp arg = .error (.missingParam .dds) := by
  unfold decodeDds
  split
  case h_1 h => exact .inl ⟨.ddsStatus, rfl, BitVec.eq_of_toNat_eq h, nofun, nofun⟩
  case h_2 h => exact .inl ⟨.ddsSetf arg, rfl, BitVec.eq_of_toNat_eq h, fun _ => rfl, nofun⟩
  case h_3 h =>
    cases hd : arg.getLsbD 0
    · exact .inl ⟨.ddsDown, rfl, BitVec.eq_of_toNat_eq h, fun _ => rfl, fun _ hdir => hd.trans (Option.some.inj hdir)⟩
    · exact .inl ⟨.ddsUp, rfl, BitVec.eq_of_toNat_eq h, fun _ => rfl, fun _ hdir => hd.trans (Option.some.inj hdir)⟩
  case h_4 h => exact .inl ⟨.ddsSetstep arg, rfl, BitVec.eq_of_toNat_eq h, fun _ => rfl, nofun⟩
  case h_5 h => exact .inl ⟨.ddsEn, rfl, BitVec.eq_of_toNat_eq h, nofun, nofun⟩
  case h_6 h => exact .inl ⟨.ddsDis, rfl, BitVec.eq_of_toNat_eq h, nofun, nofun⟩
  case h_7 | h_8 | h_9 => exact .inr (.inr rfl)
  case h_10 => exact .inr (.inl rfl)

/-- The fields of a PLL word fit a row, or the word is the unit's default no-op (R66). -/
theorem decodePll_cases (op : BitVec 4) (argp : Bool) (arg : Hz) :
    (∃ i : Instr, i.unit = .pll ∧ Fits i op argp arg) ∨
    decodePll op argp arg = .error (.unknownOp .pll) ∨ decodePll op argp arg = .error (.missingParam .pll) := by
  unfold decodePll
  split
  case h_1 h => exact .inl ⟨.pllStatus, rfl, BitVec.eq_of_toNat_eq h, nofun, nofun⟩
  case h_2 h => exact .inl ⟨.pllSetf arg, rfl, BitVec.eq_of_toNat_eq h, fun _ => rfl, nofun⟩
  case h_3 h =>
    cases hd : arg.getLsbD 0
    · exact .inl ⟨.pllDown, rfl, BitVec.eq_of_toNat_eq h, fun _ => rfl, fun _ hdir => hd.trans (Option.some.inj hdir)⟩
    · exact .inl ⟨.pllUp, rfl, BitVec.eq_of_toNat_eq h, fun _ => rfl, fun _ hdir => hd.trans (Option.some.inj hdir)⟩
  case h_4 h => exact .inl ⟨.pllSetstep arg, rfl, BitVec.eq_of_toNat_eq h, fun _ => rfl, nofun⟩
  case h_5 h => exact .inl ⟨.pllEn, rfl, BitVec.eq_of_toNat_eq h, nofun, nofun⟩
  case h_6 h => exact .inl ⟨.pllDis, rfl, BitVec.eq_of_toNat_eq h, nofun, nofun⟩
  case h_7 h => exact .inl ⟨.pllSetpwr arg, rfl, BitVec.eq_of_toNat_eq h, fun _ => rfl, nofun⟩
  case h_8 h => exact .inl ⟨.pllToggle, rfl, BitVec.eq_of_toNat_eq h, nofun, nofun⟩
  case h_9 | h_10 | h_11 | h_12 => exact .inr (.inr rfl)
  case h_13 => exact .inr (.inl rfl)

/-- The fields of a unit's word fit a row, or the word is the unit's default no-op (R66). -/
theorem decodeColumn_cases (u : UnitSel) (op : BitVec 4) (argp : Bool) (arg : Hz) :
    (∃ i : Instr, i.unit = u ∧ Fits i op argp arg) ∨
    decodeColumn u op argp arg = .error (.unknownOp u) ∨ decodeColumn u op argp arg = .error (.missingParam u) :=
  match u with
  | .dds => decodeDds_cases op argp arg
  | .pll => decodePll_cases op argp arg

/-! ### Decoding is the opcode table (30 R65) -/

theorem matches_iff_fits {i : Instr} {w : Cmd} :
    (opcodeRow i).Matches w ↔ cmdUnit w = i.unit.code ∧ Fits i (cmdOp w) (cmdArgp w) (cmdArg w) :=
  opcodeRow_matches_iff i w

/-- A word that satisfies a row decodes to the row's command, `arg` whole as its operand. -/
theorem decode_of_matches {i : Instr} {w : Cmd} (h : (opcodeRow i).Matches w) :
    decode w = .ok (withOperand (cmdArg w) i) := by
  obtain ⟨hunit, hfits⟩ := matches_iff_fits.mp h
  rw [decode_of_unit hunit, decodeColumn_of_fits hfits]

/-- A word is refused, satisfies a row, or is the default no-op of the unit it names. -/
theorem decode_cases (w : Cmd) :
    (2 ≤ (cmdUnit w).toNat ∧ decode w = .error (.noSuchUnit (cmdUnit w))) ∨
    (∃ i : Instr, (opcodeRow i).Matches w) ∨
    ∃ u : UnitSel, u.code = cmdUnit w ∧ (decode w = .error (.unknownOp u) ∨ decode w = .error (.missingParam u)) := by
  rcases Nat.lt_or_ge (cmdUnit w).toNat 2 with hlt | hge
  · obtain ⟨u, hu⟩ := exists_unit_of_lt hlt
    rw [decode_of_unit hu]
    rcases decodeColumn_cases u (cmdOp w) (cmdArgp w) (cmdArg w) with ⟨i, rfl, hfits⟩ | herr
    · exact .inr (.inl ⟨i, matches_iff_fits.mpr ⟨hu, hfits⟩⟩)
    · exact .inr (.inr ⟨u, hu.symm, herr⟩)
  · exact .inl ⟨hge, decode_of_no_unit hge⟩

theorem decode_eq_ok_iff {w : Cmd} {i : Instr} :
    decode w = .ok i ↔ (opcodeRow i).Matches w ∧ withOperand (cmdArg w) i = i := by
  constructor
  · intro h
    rcases decode_cases w with ⟨-, herr⟩ | ⟨j, hj⟩ | ⟨u, -, herr | herr⟩
    · cases h.symm.trans herr
    · obtain rfl : i = withOperand (cmdArg w) j := Except.ok.inj (h.symm.trans (decode_of_matches hj))
      exact ⟨by rwa [opcodeRow_withOperand], withOperand_idem _ j⟩
    · cases h.symm.trans herr
    · cases h.symm.trans herr
  · rintro ⟨hrow, hop⟩
    rw [decode_of_matches hrow, hop]

/-- The rows are disjoint: a word's row is the one of the command it decodes to. -/
theorem opcodeRow_eq_of_matches {i j : Instr} {w : Cmd} (hi : (opcodeRow i).Matches w) (hj : (opcodeRow j).Matches w) :
    opcodeRow i = opcodeRow j := by
  have h : withOperand (cmdArg w) i = withOperand (cmdArg w) j :=
    Except.ok.inj ((decode_of_matches hi).symm.trans (decode_of_matches hj))
  rw [← opcodeRow_withOperand (cmdArg w) i, h, opcodeRow_withOperand]

/-- Settles O3: a word that satisfies a row decodes to the row's command, and every other word is refused or a default
no-op. -/
theorem decodingFollowsTheOpcodeTable : Obligations.DecodingFollowsTheOpcodeTable := by
  intro w
  refine ⟨decode_of_no_unit, fun _ _ => opcodeRow_eq_of_matches, fun i => ?_, fun hlt hnone => ?_⟩
  · rw [decode_eq_ok_iff, withOperand_eq_self_iff]
  · rcases decode_cases w with ⟨hge, -⟩ | ⟨i, hi⟩ | hnoop
    · omega
    · exact absurd hi (hnone i)
    · exact hnoop

/-! ### Encode after decode (30 R60, R64) -/

/-- The bits of the `arg` field in a word. -/
def argBits (a : Hz) : Cmd := a.setWidth 72

theorem and_argMask (w : Cmd) : w &&& 0x00FFFFFFFFFFFFFFFF#72 = argBits (cmdArg w) := by
  apply BitVec.eq_of_toNat_eq
  calc (w &&& 0x00FFFFFFFFFFFFFFFF#72).toNat
    _ = w.toNat &&& 2 ^ 64 - 1 := BitVec.toNat_and _ _
    _ = w.toNat % 2 ^ 64 := Nat.and_two_pow_sub_one_eq_mod _ _
    _ = (argBits (cmdArg w)).toNat := by
      simp only [argBits, cmdArg, BitVec.toNat_setWidth, BitVec.extractLsb'_toNat, Nat.shiftRight_zero]
      omega

/-- The `arg` field of a packed word can be put in last. -/
theorem packCmd_eq_or (u : UnitSel) (op : BitVec 4) (argp : Bool) (a : Hz) :
    packCmd u op argp a = packCmd u op argp 0#64 ||| argBits a := by
  apply BitVec.eq_of_getLsbD_eq
  intro b hb
  simp only [packCmd, argBits, BitVec.getLsbD_or, BitVec.getLsbD_append, BitVec.getLsbD_setWidth]
  by_cases h : b < 64
  · simp [h, hb]
  · simp [h, BitVec.getLsbD_of_ge a b (Nat.not_lt.mp h)]

/-- A command without an operand is encoded as its row's pattern, and depends on the bits its row tests. -/
theorem encode_of_no_operand {i : Instr} (h : i.operand = none) :
    encode i = (opcodeRow i).pattern ∧ i.significantBits = (opcodeRow i).mask := by
  cases i with
  | ddsSetf | ddsSetstep | pllSetf | pllSetstep | pllSetpwr => cases h
  | _ => exact ⟨rfl, rfl⟩

/-- A command with an operand is encoded as its row's pattern with the operand put in, and depends on `arg` as well. -/
theorem encode_of_operand {i : Instr} {a : Hz} (h : i.operand = some a) :
    encode i = (opcodeRow i).pattern ||| argBits a ∧
    i.significantBits = (opcodeRow i).mask ||| 0x00FFFFFFFFFFFFFFFF#72 := by
  cases i with
  | ddsSetf | ddsSetstep | pllSetf | pllSetstep | pllSetpwr =>
    cases h
    exact ⟨packCmd_eq_or _ _ _ _, rfl⟩
  | _ => cases h

/-- Settles O2: a decoded word has its row's pattern under the row's mask, and its `arg` field is the operand. -/
theorem encodeRestoresSignificantBits : Obligations.EncodeRestoresSignificantBits := by
  intro w i h
  obtain ⟨hrow, hop⟩ := decode_eq_ok_iff.mp h
  cases hi : i.operand with
  | none =>
    obtain ⟨henc, hbits⟩ := encode_of_no_operand hi
    rw [henc, hbits, hrow]
  | some a =>
    obtain ⟨henc, hbits⟩ := encode_of_operand hi
    rw [henc, hbits, BitVec.and_or_distrib_left, hrow, and_argMask, withOperand_eq_self_iff.mp hop a hi]

/-! ### The JSON command mapping (30 R77) -/

/-- A number of 64 bits is given as it is. -/
theorem numberArg_of_u64 {n : Int} (h0 : 0 ≤ n) (h : n < 2 ^ 64) : numberArg (some n) = (true, BitVec.ofInt 64 n) :=
  if_pos ⟨h0, h⟩

/-- A missing, negative or over-large number is no parameter (D36). -/
theorem numberArg_of_not_u64 {p : Option Int} (h : ∀ n, p = some n → n < 0 ∨ 2 ^ 64 ≤ n) : numberArg p = (false, 0#64) := by
  cases p with
  | none => rfl
  | some n =>
    have := h n rfl
    exact if_neg (by omega)

theorem cmdUnit_rawCmd (n : BitVec 2) (op : BitVec 4) (argp : Bool) (a : Hz) : cmdUnit (rawCmd n op argp a) = n :=
  calc cmdUnit (rawCmd n op argp a)
    _ = BitVec.extractLsb' 70 2 (n ++ op ++ BitVec.ofBool argp ++ 0#1 ++ a) := rfl
    _ = BitVec.extractLsb' 0 2 n := by iterate 4 rw [BitVec.extractLsb'_append_eq_of_le (by decide)]
    _ = n := BitVec.extractLsb'_eq_self

/-- A `vfo_command` names unit 2, whatever its sub-action. -/
theorem decode_translateText_vfo (sub : SubAccion) : decode (translateText .vfo sub) = .error (.noSuchUnit 2#2) := by
  have hunit : cmdUnit (translateText .vfo sub) = 2#2 := by
    cases sub <;> exact cmdUnit_rawCmd _ _ _ _
  rw [decode_of_no_unit (by rw [hunit]; decide), hunit]

/-- Settles O5: a text command of either unit is a packed word, with `argp` set exactly when the parameter is there. -/
theorem textCommandsTranslate : Obligations.TextCommandsTranslate := by
  refine ⟨fun n h0 h => ?_, decode_packCmd_dds _ _ _, decode_packCmd_dds _ _ _, decode_packCmd_pll _ _ _,
    decode_packCmd_pll _ _ _, decode_packCmd_dds _ _ _, decode_packCmd_dds _ _ _, decode_packCmd_pll _ _ _,
    decode_packCmd_pll _ _ _, decode_packCmd_pll _ _ _, fun p h => ?_, decode_packCmd_dds _ _ _, decode_packCmd_pll _ _ _,
    fun p => ?_, decode_packCmd_dds _ _ _, fun k => ?_, decode_translateText_vfo⟩
  · simp only [translateText, numberArg_of_u64 h0 h]
    exact ⟨decode_packCmd_dds _ _ _, decode_packCmd_pll _ _ _, decode_packCmd_dds _ _ _, decode_packCmd_pll _ _ _,
      decode_packCmd_pll _ _ _⟩
  · simp only [translateText, numberArg_of_not_u64 h]
    exact ⟨decode_packCmd_dds _ _ _, decode_packCmd_pll _ _ _, decode_packCmd_dds _ _ _, decode_packCmd_pll _ _ _,
      decode_packCmd_pll _ _ _⟩
  · exact decode_packCmd_dds _ _ _
  · revert k
    decide

end Sys2Proof.Proofs.Encoding
end

section
/-! The answer to a presented word (spec 30 R61, R67, R68; 44 R180, R185): which words are refused, and what the one response
to every other word says. -/

namespace Sys2Proof.Proofs.Responses

open Sys2Proof.Machine Sys2Proof.Proofs.Encoding

/-! ### Which words are answered (30 R61, R67) -/

theorem runWord_of_no_unit {w : Cmd} (s : State) (h : 2 ≤ (cmdUnit w).toNat) :
    runWord w s = .refused (.noSuchUnit (cmdUnit w)) := by
  simp only [runWord, decode_of_no_unit h]

/-- A rule that writes nothing, as that of a word that is no command. -/
theorem ruleFrame_refl (s : State) : RuleFrame s s :=
  ⟨rfl, rfl, rfl, rfl, rfl⟩

/-- A word of unit 0 or 1 runs a rule of the unit it names inside the command frame. -/
theorem runWord_of_unit {w : Cmd} (s : State) (h : (cmdUnit w).toNat < 2) :
    ∃ (u : UnitSel) (rule : State → OutcomeClass × State),
      u.code = cmdUnit w ∧ RuleFrame s (rule s).2 ∧ runWord w s = runCommand u rule s := by
  rcases decode_cases w with ⟨hge, -⟩ | ⟨i, hi⟩ | ⟨u, hu, herr | herr⟩
  · omega
  · refine ⟨i.unit, ruleOf (withOperand (cmdArg w) i), (matches_iff_fits.mp hi).1.symm, ruleOf_frame _ s, ?_⟩
    simp only [runWord, decode_of_matches hi, exec_eq_runCommand, unit_withOperand]
  · exact ⟨u, ignored .unknownOp, hu, ruleFrame_refl s, by simp only [runWord, herr]; rfl⟩
  · exact ⟨u, ignored .missingParam, hu, ruleFrame_refl s, by simp only [runWord, herr]; rfl⟩

/-- A command frame answers from the state its rule leaves, or from the state as it was. -/
theorem runCommand_responds {u : UnitSel} {rule : State → OutcomeClass × State} {s : State} (h : RuleFrame s (rule s).2) :
    ∃ (cls : OutcomeClass) (s' : State), runCommand u rule s = .next (respond u cls s') ∧ RuleFrame s s' := by
  cases hu : usable u s
  · exact ⟨_, s, runCommand_of_unusable rule hu, ruleFrame_refl s⟩
  · exact ⟨_, _, runCommand_of_usable rule hu, h⟩

/-- A step takes a word of unit 0 or 1 and answers it for the unit it names. -/
theorem step_responds {s : State} {w : Cmd} {rest : List Cmd} (hc : s.cfg.WellFormed) (hhost : s.host = w :: rest)
    (h : (cmdUnit w).toNat < 2) :
    ∃ (u : UnitSel) (cls : OutcomeClass) (s' : State),
      u.code = cmdUnit w ∧ step s = .next (respond u cls s') ∧ s'.host = rest ∧ s'.rsplog = s.rsplog := by
  obtain ⟨u, rule, hu, hrule, hrun⟩ := runWord_of_unit { s with host := rest } h
  obtain ⟨cls, s', hnext, hframe⟩ := runCommand_responds (u := u) hrule
  exact ⟨u, cls, s', hu, by rw [step_of_host hc hhost, hrun, hnext], hframe.host, hframe.rsplog⟩

/-- Settles O7: the check of the configuration comes first, then the word's unit decides. -/
theorem stepRefusesOnlyByRule : Obligations.StepRefusesOnlyByRule := by
  refine ⟨fun s hc => if_neg hc, fun s w rest hc hhost hge => ?_, fun s w rest hc hhost hlt => ?_, fun s hc hhost => ?_⟩
  · rw [step_of_host hc hhost, runWord_of_no_unit _ hge]
  · obtain ⟨u, cls, s', -, hnext, -⟩ := step_responds hc hhost hlt
    exact ⟨_, hnext⟩
  · simp only [step, serveHost, hhost, if_pos hc]

/-! ### What a response says (30 R68; 44 R185) -/

theorem snapshot_header (u : UnitSel) (st : RspStatus) (s : State) :
    rspUnit (snapshot u st s) = u.code ∧ rspStatus (snapshot u st s) = st.bit ∧ rspReserved (snapshot u st s) = 0#2 := by
  cases u
  · obtain ⟨hunit, hstatus, hres, -⟩ := rspWord_fields .dds st s.dds.en 0#2 s.dds.freq s.dds.step
    exact ⟨hunit, hstatus, hres⟩
  · obtain ⟨hunit, hstatus, hres, -⟩ := rspWord_fields .pll st s.pll.rfOn s.pll.power s.pll.freq s.pll.step
    exact ⟨hunit, hstatus, hres⟩

theorem snapshot_dds_registers (st : RspStatus) (s : State) :
    rspEn (snapshot .dds st s) = s.dds.en ∧ rspPower (snapshot .dds st s) = 0#2 ∧
    rspFreq (snapshot .dds st s) = s.dds.freq ∧ rspStep (snapshot .dds st s) = s.dds.step := by
  obtain ⟨-, -, -, hregs⟩ := rspWord_fields .dds st s.dds.en 0#2 s.dds.freq s.dds.step
  exact hregs

theorem snapshot_pll_registers (st : RspStatus) (s : State) :
    rspEn (snapshot .pll st s) = s.pll.rfOn ∧ rspPower (snapshot .pll st s) = s.pll.power ∧
    rspFreq (snapshot .pll st s) = s.pll.freq ∧ rspStep (snapshot .pll st s) = s.pll.step := by
  obtain ⟨-, -, -, hregs⟩ := rspWord_fields .pll st s.pll.rfOn s.pll.power s.pll.freq s.pll.step
  exact hregs

/-- The status bit is set for an unusable unit alone (60 R204). -/
theorem status_bit_iff (cls : OutcomeClass) : cls.status.bit = true ↔ cls = .unavailable := by
  cases cls <;> decide

/-- Settles O11: the response's unit field is the code of the unit that answers. -/
theorem everyCommandGetsOneResponse : Obligations.EveryCommandGetsOneResponse := by
  intro s w rest hc hhost hlt
  obtain ⟨u, cls, s', hu, hnext, hrest, hrsp⟩ := step_responds hc hhost hlt
  obtain ⟨hunit, -⟩ := snapshot_header u cls.status s'
  exact ⟨_, _, hnext, hrest, congrArg (· ++ [_]) hrsp, hunit.trans hu⟩

/-- Settles O12: the response is the snapshot of the state it is added to, and adding it writes no register. -/
theorem responseFieldsAreTheUnitsRegistersAfterward : Obligations.ResponseFieldsAreTheUnitsRegistersAfterward := by
  intro i s t h
  obtain ⟨cls, s', hnext, hframe⟩ := runCommand_responds (u := i.unit) (ruleOf_frame i s)
  rw [exec_eq_runCommand, hnext] at h
  cases h
  obtain ⟨hunit, hstatus, hres⟩ := snapshot_header i.unit cls.status s'
  refine ⟨⟨cls, snapshot i.unit cls.status s'⟩, congrArg (· ++ [_]) hframe.rsplog, hunit, ?_, hres, ?_⟩
  · rw [hstatus, status_bit_iff]
  · cases i.unit
    · exact snapshot_dds_registers cls.status s'
    · exact snapshot_pll_registers cls.status s'

end Sys2Proof.Proofs.Responses
end

section
/-! The tuning word and its frame (spec 40 R90 to R95, R99): the increment is the exact ratio of `ddsRatio`, rounded; the word
is the increment modulo 2^32. -/

namespace Sys2Proof.Proofs.TuningWord

open Sys2Proof.Machine Sys2Proof.Proofs.Rounding

/-! ### The increment is the rounded ratio (40 R90) -/

/-- `DDS_REF`, the reference clock as a rational (00 R6; 40 R90). -/
def ddsRef (c : Cfg) : ℚ := (c.ddsRefNum : ℚ) / (c.ddsRefDen : ℚ)

/-- `q = f * DDS_SCALE / DDS_REF`, the exact ratio before the rounding (40 R90). -/
def ddsRatio (c : Cfg) (f : Nat) : ℚ := (f : ℚ) * (c.ddsScale : ℚ) / ddsRef c

theorem ddsRef_pos {c : Cfg} (hc : c.RefsPositive) : 0 < ddsRef c := by
  obtain ⟨hnum, hden, -, -⟩ := hc
  exact div_pos (by exact_mod_cast hnum) (by exact_mod_cast hden)

/-- The fraction the model rounds is the exact ratio, with `DDS_REF`'s denominator brought up. -/
theorem ddsRatio_eq_div (c : Cfg) (f : Nat) :
    ddsRatio c f = ((f * c.ddsScale * c.ddsRefDen : ℕ) : ℚ) / (c.ddsRefNum : ℚ) := by
  push_cast
  exact div_div_eq_mul_div _ _ _

/-- The increment is the exact ratio rounded to the nearest integer, ties upward. -/
theorem ddsIncrement_eq_round {c : Cfg} (hc : c.RefsPositive) (f : Nat) :
    (ddsIncrement c f : ℤ) = round (ddsRatio c f) := by
  obtain ⟨hnum, -⟩ := hc
  rw [round_eq, ddsRatio_eq_div]
  exact roundHu_eq_floor _ hnum

theorem ddsTuningWord_toNat (c : Cfg) (f : Hz) : (ddsTuningWord c f).toNat = ddsIncrement c f.toNat % 2 ^ 32 :=
  BitVec.toNat_ofNat _ _

/-- Settles O33: the increment is the rounded ratio, and the word is the increment as a 32-bit integer. -/
theorem tuningWordIsTheRoundedRatio : Obligations.TuningWordIsTheRoundedRatio := by
  intro c f hc
  calc ddsTuningWord c f
    _ = BitVec.ofInt 32 (ddsIncrement c f.toNat : ℤ) := (BitVec.ofInt_natCast _ _).symm
    _ = BitVec.ofInt 32 ⌊ddsRatio c f.toNat + 1 / 2⌋ := by rw [ddsIncrement_eq_round hc, round_eq]

/-! ### When the increment is reduced (40 R92) -/

theorem ddsIncrement_lt_iff {c : Cfg} (hc : c.RefsPositive) (f n : Nat) :
    ddsIncrement c f < n ↔ ddsRatio c f < n - 1 / 2 := by
  rw [← Int.ofNat_lt, ddsIncrement_eq_round hc, round_eq, Int.floor_lt, Int.cast_natCast, lt_sub_iff_add_lt]

/-- For a scale of 2^32 the bound on the ratio is one on the frequency: `DDS_REF * (1 - 2^-33)`. -/
theorem ddsRatio_lt_bound_iff {c : Cfg} (hc : c.RefsPositive) (hscale : c.ddsScale = 2 ^ 32) (f : Nat) :
    ddsRatio c f < 2 ^ 32 - 1 / 2 ↔ (f : ℚ) < ddsRef c * (1 - 1 / 2 ^ 33) := by
  rw [ddsRatio, hscale, div_lt_iff₀ (ddsRef_pos hc)]
  push_cast
  constructor <;> intro h <;> linarith

/-- Settles O34: each form of the bound is that of `ddsIncrement_lt_iff` at 2^32; a reference above 40 000 000.005 exceeds the
greatest frequency of the domain by more than `DDS_REF * 2^-33`. -/
theorem tuningWordWrapsModulo : Obligations.TuningWordWrapsModulo := by
  intro c f hc ref
  have hratio : ddsIncrement c f.toNat < 2 ^ 32 ↔ ddsRatio c f.toNat < 2 ^ 32 - 1 / 2 := by
    exact_mod_cast ddsIncrement_lt_iff hc f.toNat (2 ^ 32)
  have hfreq (hscale : c.ddsScale = 2 ^ 32) := hratio.trans (ddsRatio_lt_bound_iff hc hscale f.toNat)
  refine ⟨ddsTuningWord_toNat c f, hratio, hfreq, fun hscale hf href => (hfreq hscale).mpr ?_⟩
  have hf' : (f.toNat : ℚ) ≤ 40000000 := by exact_mod_cast hf
  change _ < ddsRef c at href
  linarith

/-! ### The increment follows the frequency (40 R99) -/

theorem roundHu_mono {m n : Nat} (h : m ≤ n) (d : Nat) : roundHu m d ≤ roundHu n d :=
  Nat.div_le_div_right (by omega)

theorem ddsIncrement_mono (c : Cfg) {f g : Nat} (h : f ≤ g) : ddsIncrement c f ≤ ddsIncrement c g :=
  roundHu_mono (Nat.mul_le_mul_right _ (Nat.mul_le_mul_right _ h)) _

theorem abs_ddsIncrement_sub_ddsRatio_le {c : Cfg} (hc : c.RefsPositive) (f : Nat) :
    |(ddsIncrement c f : ℚ) - ddsRatio c f| ≤ 1 / 2 := by
  have hround : (ddsIncrement c f : ℚ) = (round (ddsRatio c f) : ℚ) := by exact_mod_cast ddsIncrement_eq_round hc f
  rw [hround, abs_sub_comm]
  exact abs_sub_round _

/-- For a scale of 2^32 the generated frequency `t * DDS_REF / 2^32` misses `f` by what the increment misses the ratio, scaled
by `DDS_REF / 2^32`. -/
theorem generated_sub_freq_eq {c : Cfg} (hc : c.RefsPositive) (hscale : c.ddsScale = 2 ^ 32) (t : ℚ) (f : Nat) :
    t * ddsRef c / 2 ^ 32 - f = (t - ddsRatio c f) * (ddsRef c / 2 ^ 32) := by
  have href := (ddsRef_pos hc).ne'
  rw [ddsRatio, hscale]
  push_cast
  field_simp
  ring

theorem abs_generated_sub_freq_le {c : Cfg} (hc : c.RefsPositive) (hscale : c.ddsScale = 2 ^ 32) (f : Nat) :
    |(ddsIncrement c f : ℚ) * ddsRef c / 2 ^ 32 - f| ≤ ddsRef c / 2 ^ 33 := by
  have hpos : 0 < ddsRef c / 2 ^ 32 := div_pos (ddsRef_pos hc) (by norm_num)
  calc |(ddsIncrement c f : ℚ) * ddsRef c / 2 ^ 32 - f|
    _ = |(ddsIncrement c f : ℚ) - ddsRatio c f| * (ddsRef c / 2 ^ 32) := by
      rw [generated_sub_freq_eq hc hscale, abs_mul, abs_of_pos hpos]
    _ ≤ 1 / 2 * (ddsRef c / 2 ^ 32) := mul_le_mul_of_nonneg_right (abs_ddsIncrement_sub_ddsRatio_le hc f) hpos.le
    _ = ddsRef c / 2 ^ 33 := by ring

/-- Settles O35: (c) is (b) scaled by the reference, which is its numerator when it is integral. -/
theorem tuningIncrementIsMonotoneAndClose : Obligations.TuningIncrementIsMonotoneAndClose := by
  intro c hc
  refine ⟨fun f g => ddsIncrement_mono c, abs_ddsIncrement_sub_ddsRatio_le hc, fun hscale hden f => ?_⟩
  have href : ddsRef c = c.ddsRefNum := by simp [ddsRef, hden]
  simpa only [href] using abs_generated_sub_freq_le hc hscale f

/-! ### Frames (40 R93, R95; 20 R41) -/

/-- Settles O36: the frame of the zero word. -/
theorem zeroFrequencyIsTheZeroFrame : Obligations.ZeroFrequencyIsTheZeroFrame := by
  intro c
  rw [TransmitLog.ddsTuningWord_zero]
  decide

theorem append_byte_eq (w : Word32) (i n : Nat) :
    w.extractLsb' (i + 8) n ++ w.extractLsb' i 8 = w.extractLsb' i (n + 8) :=
  BitVec.extractLsb'_append_extractLsb'_eq_extractLsb' rfl

/-- A word's four bytes, put together most significant first, are the word (00 R11). -/
theorem append_bytes_eq (w : Word32) :
    w.extractLsb' 24 8 ++ w.extractLsb' 16 8 ++ w.extractLsb' 8 8 ++ w.extractLsb' 0 8 = w := by
  rw [append_byte_eq w 16 8, append_byte_eq w 8 16, append_byte_eq w 0 24]
  exact BitVec.extractLsb'_eq_self

/-- Settles O37: the frame's bytes are `byteOf` 0 to 3 and `DDS_CTRL`. -/
theorem frameIsLeastSignificantByteFirst : Obligations.FrameIsLeastSignificantByteFirst :=
  fun w => ⟨rfl, append_bytes_eq w⟩

end Sys2Proof.Proofs.TuningWord
end

section
/-! The numbers the PLL's register set is made of (spec 41 R101 to R108): the divider select, the VCO frequency, INT and
FRAC. -/

namespace Sys2Proof.Proofs.PllNumbers

open Sys2Proof.Machine Sys2Proof.Proofs.Rounding

/-! ### The divider select and the VCO's band (41 R101 to R103) -/

/-- The fallback threshold 0 ends the search: the divider select is an index of the list (R101). -/
theorem pllRfDivSel_lt_length (f : Nat) : pllRfDivSel f < Config.pllThresh.length :=
  List.findIdx_lt_length_of_exists ⟨0, by decide, decide_eq_true f.zero_le⟩

theorem pllRfDivSel_isLeast (f : Nat) : IsLeast {i | ∃ t, Config.pllThresh[i]? = some t ∧ t ≤ f} (pllRfDivSel f) := by
  constructor
  · have hlt := pllRfDivSel_lt_length f
    exact ⟨_, List.getElem?_eq_getElem hlt, of_decide_eq_true (List.findIdx_getElem (w := hlt))⟩
  · rintro i ⟨t, hi, ht⟩
    obtain ⟨_, rfl⟩ := List.getElem?_eq_some_iff.mp hi
    by_contra hlt
    exact of_decide_eq_false (List.not_of_lt_findIdx (Nat.lt_of_not_le hlt)) ht

/-- Settles O38: the search for the first threshold reached gives the least index, and the comparisons it runs through give
the table. -/
theorem dividerSelectIsTheLeastIndex : Obligations.DividerSelectIsTheLeastIndex := by
  intro f
  refine ⟨pllRfDivSel_isLeast f, ?_⟩
  have hsel := pllRfDivSel_eq f
  split_ifs at hsel <;> omega

/-- Each row of R101's table multiplies its range into the band; the last starts at the domain's least frequency. -/
theorem pllVco_bounds {f : Nat} (hlo : 35000000 ≤ f) (hhi : f ≤ 4400000000) :
    2200000000 ≤ pllVco f ∧ pllVco f ≤ 4400000000 := by
  rw [pllVco, pllRfDivSel_eq]
  split_ifs <;> omega

/-- Below the last positive threshold the frequency is multiplied by 64 (R101's last row). -/
theorem pllVco_eq_of_lt {f : Nat} (h : f < 68750000) : pllVco f = f * 64 := by
  have hsel : pllRfDivSel f = 6 := by
    rw [pllRfDivSel_eq]
    split_ifs <;> omega
  rw [pllVco, hsel]
  rfl

/-- Settles O39: the second range is the last row's, the one that the domain cuts short. -/
theorem vcoStaysInItsBand : Obligations.VcoStaysInItsBand := by
  refine fun f => ⟨rfl, pllVco_bounds, fun hlo hhi => ?_⟩
  rw [pllVco_eq_of_lt hhi]
  omega

/-! ### INT and FRAC (41 R105, R107, R108) -/

theorem pllInt_eq_floor (c : Cfg) (vco : Nat) : (pllInt c vco : ℤ) = ⌊(vco : ℚ) / (c.pllRefHz : ℚ)⌋ :=
  (Rat.floor_natCast_div_natCast vco c.pllRefHz).symm

/-- INT lies between the floors of the band's ends (R105). -/
theorem pllInt_bounds (c : Cfg) {f : Nat} (hlo : 35000000 ≤ f) (hhi : f ≤ 4400000000) :
    2200000000 / c.pllRefHz ≤ pllInt c (pllVco f) ∧ pllInt c (pllVco f) ≤ 4400000000 / c.pllRefHz := by
  obtain ⟨hvlo, hvhi⟩ := pllVco_bounds hlo hhi
  exact ⟨Nat.div_le_div_right hvlo, Nat.div_le_div_right hvhi⟩

/-- Settles O40: the division of naturals is the floor of the ratio, and it is monotone in the VCO frequency. -/
theorem integerDividerIsTheFloor : Obligations.IntegerDividerIsTheFloor :=
  fun c _ => ⟨pllInt_eq_floor c, fun _ => pllInt_bounds c⟩

/-- What INT leaves of the ratio is its fractional part. -/
theorem ratio_sub_pllInt_eq_fract (c : Cfg) (vco : Nat) :
    (vco : ℚ) / (c.pllRefHz : ℚ) - (pllInt c vco : ℚ) = Int.fract ((vco : ℚ) / (c.pllRefHz : ℚ)) := by
  rw [← Int.self_sub_floor, ← pllInt_eq_floor, Int.cast_natCast]

/-- FRAC is the fractional part of the ratio in units of 1 / 4095, rounded with ties upward: the fraction the model rounds has
the remainder of the division over the reference (R107). -/
theorem pllFrac_eq_floor {c : Cfg} (hc : c.RefsPositive) (vco : Nat) :
    (pllFrac c vco : ℤ) = ⌊Int.fract ((vco : ℚ) / (c.pllRefHz : ℚ)) * 4095 + 1 / 2⌋ := by
  obtain ⟨-, -, -, href⟩ := hc
  have hfract : ((vco % c.pllRefHz * Config.pllMod : ℕ) : ℚ) / (c.pllRefHz : ℚ) =
      Int.fract ((vco : ℚ) / (c.pllRefHz : ℚ)) * 4095 := by
    rw [Int.fract_div_natCast_eq_div_natCast_mod, Nat.cast_mul, mul_div_right_comm]
    rfl
  rw [← hfract]
  exact roundHu_eq_floor _ href

/-- Settles O41: what is left of the ratio is its fractional part, which `pllFrac` rounds. -/
theorem fractionIsTheRoundedRemainder : Obligations.FractionIsTheRoundedRemainder := by
  intro c vco hc
  have ⟨_, _, _, href⟩ := hc
  rw [ratio_sub_pllInt_eq_fract]
  exact ⟨pllFrac_eq_floor hc vco, pllFrac_le c vco href⟩

/-- The rounding reaches MOD from 4094.5 on (R108). -/
theorem pllFrac_eq_mod_iff {c : Cfg} (hc : c.RefsPositive) (vco : Nat) :
    pllFrac c vco = 4095 ↔ Int.fract ((vco : ℚ) / (c.pllRefHz : ℚ)) ≥ 1 - 1 / 8190 := by
  have ⟨_, _, _, href⟩ := hc
  have hround : pllFrac c vco = 4095 ↔ (4095 : ℤ) ≤ pllFrac c vco := by
    have := pllFrac_le c vco href
    omega
  rw [hround, pllFrac_eq_floor hc, Int.le_floor]
  push_cast
  constructor <;> intro h <;> linarith

/-- R108's example inside the domain: 68 749 999 Hz with a reference of 8 000 000 Hz. -/
theorem pllFrac_eq_mod_of_ref_8000000 {c : Cfg} (href : c.pllRefHz = 8000000) :
    pllFrac c (pllVco 68749999) = 4095 ∧ pllInt c (pllVco 68749999) = 549 := by
  rw [pllVco_eq_of_lt (by decide), pllFrac, pllInt, href]
  decide

end Sys2Proof.Proofs.PllNumbers
end

section
/-! The six register words, field by field (spec 41 R108 to R115; 30 R70 to R75). -/

namespace Sys2Proof.Proofs.PllWordFields

open Sys2Proof.Machine Sys2Proof.Proofs.PllNumbers

/-! ### Word 0 (41 R108, R109; 30 R70) -/

/-- Bit `b` of word 0: INT from bit 15 up, FRAC from bit 3 up. -/
theorem getLsbD_pllWord0 (int frac b : Nat) (hb : b < 32) :
    (pllWord0 int frac).getLsbD b =
      ((decide (15 ≤ b) && int.testBit (b - 15)) || (decide (3 ≤ b) && frac.testBit (b - 3))) := by
  simp only [pllWord0, BitVec.getLsbD_ofNat, hb, decide_true, Bool.true_and, Nat.testBit_or, Nat.testBit_shiftLeft, ge_iff_le]

theorem pllWord0_address (int frac : Nat) : (pllWord0 int frac).extractLsb' 0 3 = 0#3 := by
  apply BitVec.eq_of_getLsbD_eq
  intro b hb
  rw [BitVec.getLsbD_extractLsb', getLsbD_pllWord0 _ _ _ (by omega)]
  simp [show ¬ 15 ≤ b by omega, show ¬ 3 ≤ b by omega]

theorem pllWord0_frac (int frac : Nat) : (pllWord0 int frac).extractLsb' 3 12 = BitVec.ofNat 12 frac := by
  apply BitVec.eq_of_getLsbD_eq
  intro b hb
  rw [BitVec.getLsbD_extractLsb', getLsbD_pllWord0 _ _ _ (by omega), BitVec.getLsbD_ofNat]
  simp [hb, show ¬ 15 ≤ 3 + b by omega]

/-- The INT field holds INT modulo 2^17 when FRAC keeps to its own field (R109). -/
theorem pllWord0_int (int : Nat) {frac : Nat} (h : frac < 2 ^ 12) :
    (pllWord0 int frac).extractLsb' 15 17 = BitVec.ofNat 17 int := by
  apply BitVec.eq_of_getLsbD_eq
  intro b hb
  have hfrac : frac.testBit (15 + b - 3) = false :=
    Nat.testBit_lt_two_pow (h.trans_le (Nat.pow_le_pow_right (by omega) (by omega)))
  rw [BitVec.getLsbD_extractLsb', getLsbD_pllWord0 _ _ _ (by omega), BitVec.getLsbD_ofNat, hfrac]
  simp [hb]

/-- FRAC keeps to its 12-bit field (R107, R109). -/
theorem pllFrac_lt {c : Cfg} (hc : c.RefsPositive) (vco : Nat) : pllFrac c vco < 2 ^ 12 := by
  obtain ⟨-, -, -, href⟩ := hc
  exact Nat.lt_succ_of_le (pllFrac_le c vco href)

/-- In the domain INT fits its 17-bit field when the reference is at least 33 570 Hz (R109). -/
theorem pllInt_lt {c : Cfg} {f : Nat} (hlo : 35000000 ≤ f) (hhi : f ≤ 4400000000) (href : 33570 ≤ c.pllRefHz) :
    pllInt c (pllVco f) < 2 ^ 17 :=
  calc pllInt c (pllVco f)
    _ ≤ 4400000000 / c.pllRefHz := (pllInt_bounds c hlo hhi).2
    _ ≤ 4400000000 / 33570 := Nat.div_le_div_left href (by decide)
    _ < 2 ^ 17 := by decide

/-- Settles O43: the fields are INT and FRAC as numbers of their width, which FRAC always fits and INT fits in the domain. -/
theorem wordZeroFields : Obligations.WordZeroFields := by
  intro c f e p hc vco w
  have hfrac : (w.extractLsb' 3 12).toNat = pllFrac c vco := by
    rw [show w.extractLsb' 3 12 = _ from pllWord0_frac _ _, BitVec.toNat_ofNat, Nat.mod_eq_of_lt (pllFrac_lt hc vco)]
  have hint : (w.extractLsb' 15 17).toNat = pllInt c vco % 2 ^ 17 := by
    rw [show w.extractLsb' 15 17 = _ from pllWord0_int _ (pllFrac_lt hc vco), BitVec.toNat_ofNat]
  refine ⟨pllWord0_address _ _, hfrac, hint, fun hlo hhi href => ?_⟩
  rw [hint, Nat.mod_eq_of_lt (pllInt_lt hlo hhi href)]

/-- Settles O42: FRAC = MOD is packed as any other FRAC, next to the floor. -/
theorem fractionCanEqualTheModulus : Obligations.FractionCanEqualTheModulus := by
  intro c f e p hc vco
  refine ⟨pllFrac_eq_mod_iff hc vco, fun hmod => ⟨?_, pllWord0_int _ (pllFrac_lt hc vco)⟩, pllFrac_eq_mod_of_ref_8000000⟩
  rw [← hmod]
  exact pllWord0_frac _ _

/-! ### Bits of a fixed constant and of an address -/

/-- A constant that is 0 on a field has none of the field's bits (00 R8). -/
theorem getLsbD_of_field_clear {x : Word32} {lsb width b : Nat} (h : x &&& fieldMask lsb width = 0#32) (hb : b < 32)
    (hlo : lsb ≤ b) (hhi : b < lsb + width) : x.getLsbD b = false :=
  getLsbD_of_and_eq_zero h b (by rw [getLsbD_fieldMask _ _ _ hb]; exact decide_eq_true ⟨hlo, hhi⟩)

/-- An address has no bits outside the low three. -/
theorem getLsbD_address {n b : Nat} (hn : n < 2 ^ 3) (hb : 3 ≤ b) : (BitVec.ofNat 32 n).getLsbD b = false := by
  rw [BitVec.getLsbD_ofNat, Nat.testBit_lt_two_pow (hn.trans_le (Nat.pow_le_pow_right (by omega) hb)), Bool.and_false]

/-- A field of one bit. -/
theorem oneBitField_eq (v : Bool) (lsb b : Nat) :
    (decide (lsb ≤ b ∧ b < lsb + 1) && v.toNat.testBit (b - lsb)) = (decide (b = lsb) && v) := by
  rw [Nat.testBit_bool_toNat, ← Bool.and_assoc, ← Bool.decide_and]
  congr 2
  exact propext (by omega)

/-! ### Word 1 (41 R104, R110; 30 R71) -/

theorem pllPrescaler_eq (vco : Nat) : pllPrescaler vco = decide (3600000000 ≤ vco) := rfl

/-- The two fields of word 1, and its constant bits (R110). -/
theorem getLsbD_w1 {c : Cfg} (f : Hz) (e : Bool) (p : BitVec 2) {b : Nat} (hb : b < 32) :
    (pllEncode c f e p).w1.getLsbD b =
      (c.pllR1Fixed.getLsbD b || (decide (b = c.pllPrescBit) && pllPrescaler (pllVco f.toNat)) ||
        (decide (c.pllModLsb ≤ b ∧ b ≤ c.pllModLsb + 11) && Config.pllMod.testBit (b - c.pllModLsb)) ||
        (1#32).getLsbD b) := by
  have hpresc : (BitVec.ofBool (pllPrescaler (pllVco f.toNat))).setWidth 32 =
      BitVec.ofNat 32 (pllPrescaler (pllVco f.toNat)).toNat := by
    cases pllPrescaler (pllVco f.toNat) <;> rfl
  simp only [pllEncode, pllWord1, hpresc, BitVec.getLsbD_or, getLsbD_placed _ c.pllPrescBit 1 b (Bool.toNat_lt _) hb,
    oneBitField_eq, getLsbD_placed Config.pllMod c.pllModLsb 12 b (by decide) hb]
  simp only [Nat.lt_succ_iff]

/-- MOD is twelve set bits (R106). -/
theorem testBit_pllMod {j : Nat} (h : j < 12) : Config.pllMod.testBit j = true :=
  (Nat.testBit_two_pow_sub_one 12 j).trans (decide_eq_true h)

/-- Settles O44: no two of the fields, the address bits and the set bits of the constant meet. -/
theorem wordOneFields : Obligations.WordOneFields := by
  intro c f e p b hc hb
  obtain ⟨-, ⟨⟨hpresc, -⟩, -⟩, ⟨hdisj, -⟩, ⟨haddr, -⟩, ⟨hclearPresc, -⟩, -⟩ := hc
  rw [getLsbD_w1 f e p hb]
  split_ifs with h1 h2 h3
  · have hfixed := getLsbD_of_field_clear hclearPresc hb h1.ge (by omega)
    have hmod' : ¬ (c.pllModLsb ≤ b ∧ b ≤ c.pllModLsb + 11) := by omega
    subst h1
    simp [hfixed, hmod', getLsbD_address (n := 1) (by decide) hpresc, pllPrescaler_eq]
  · simp [h2, testBit_pllMod (show b - c.pllModLsb < 12 by omega)]
  · have hfixed := getLsbD_of_field_clear (lsb := 0) (width := 3) haddr hb b.zero_le (by omega)
    simp [h1, h2, hfixed]
  · simp [h1, h2, getLsbD_address (n := 1) (by decide) (Nat.le_of_not_lt h3)]

/-! ### Word 4 (41 R113; 30 R74) -/

/-- Settles O45: no two of the fields, the address bits and the set bits of the constant meet. -/
theorem wordFourFields : Obligations.WordFourFields := by
  intro c f e p b hc hb
  obtain ⟨-, ⟨-, -, ⟨hdiv, -⟩, ⟨hrfen, -⟩, ⟨hpwr, -⟩⟩, ⟨-, hdisj1, hdisj2, hdisj3⟩, ⟨-, -, -, haddr, -⟩, -,
    ⟨hclearDiv, hclearRfen, hclearPwr⟩, -⟩ := hc
  rw [getLsbD_w4 f e p hb, oneBitField_eq, BitVec.testBit_toNat]
  simp only [Nat.lt_succ_iff]
  split_ifs with h1 h2 h3 h4
  · have hfixed := getLsbD_of_field_clear hclearDiv hb h1.1 (by omega)
    have hrfen' : b ≠ c.pllRfenBit := by omega
    have hpwr' : ¬ (c.pllPwrLsb ≤ b ∧ b ≤ c.pllPwrLsb + 1) := by omega
    simp [h1, hfixed, hrfen', hpwr', getLsbD_address (n := 4) (by decide) (hdiv.trans h1.1)]
  · have hfixed := getLsbD_of_field_clear hclearRfen hb h2.ge (by omega)
    have hpwr' : ¬ (c.pllPwrLsb ≤ b ∧ b ≤ c.pllPwrLsb + 1) := by omega
    subst h2
    simp [h1, hfixed, hpwr', getLsbD_address (n := 4) (by decide) hrfen]
  · have hfixed := getLsbD_of_field_clear hclearPwr hb h3.1 (by omega)
    simp [h1, h2, h3, hfixed, getLsbD_address (n := 4) (by decide) (hpwr.trans h3.1)]
  · have hfixed := getLsbD_of_field_clear (lsb := 0) (width := 3) haddr hb b.zero_le (by omega)
    simp [h1, h2, h3, hfixed]
  · simp [h1, h2, h3, getLsbD_address (n := 4) (by decide) (Nat.lt_of_not_le h4)]

/-! ### Words 2, 3 and 5 (41 R111, R112, R114; 30 R72, R73, R75) -/

/-- An address put into a constant that is 0 there leaves the constant's other bits. -/
theorem or_address_fields {x : Word32} (h : x &&& 7#32 = 0#32) (a : BitVec 3) :
    (x ||| a.setWidth 32).extractLsb' 3 29 = x.extractLsb' 3 29 ∧ (x ||| a.setWidth 32).extractLsb' 0 3 = a := by
  have hx : x.extractLsb' 0 3 = 0#3 := by
    calc x.extractLsb' 0 3
      _ = (x &&& 7#32).extractLsb' 0 3 := by rw [BitVec.extractLsb'_and]; exact BitVec.and_allOnes.symm
      _ = 0#3 := by rw [h]; rfl
  have ha : (a.setWidth 32).extractLsb' 3 29 = 0#29 ∧ (a.setWidth 32).extractLsb' 0 3 = a := by
    decide +revert
  rw [BitVec.extractLsb'_or, BitVec.extractLsb'_or, hx, ha.1, ha.2, BitVec.or_zero, BitVec.zero_or]
  exact ⟨rfl, rfl⟩

/-- Settles O46: each of the three words is its constant with an address put in. -/
theorem fixedWordsAreConstants : Obligations.FixedWordsAreConstants := by
  intro c f e p hc
  obtain ⟨-, -, -, ⟨-, h2, h3, -, h5⟩, -⟩ := hc
  exact ⟨⟨rfl, or_address_fields h2 2#3⟩, ⟨rfl, or_address_fields h3 3#3⟩, ⟨rfl, or_address_fields h5 5#3⟩⟩

/-! ### The address field of every word (41 R115) -/

/-- Settles O47: the address field is what keeps a transmission whole (20 R48), where it is proved. -/
theorem addressFieldIsTheIndex : Obligations.AddressFieldIsTheIndex :=
  fun _ f e p i hc => TransmitLog.pllEncode_word_address hc f e p i

end Sys2Proof.Proofs.PllWordFields
end

section
/-! The DDS commands (spec 42): what each stores, sends and answers (R131 to R136), and that the last frame sent agrees with the
registers (R137). -/

namespace Sys2Proof.Proofs.DdsCommands

open Sys2Proof.Machine Sys2Proof.Proofs.StateInvariants Sys2Proof.Proofs.Noninterference
  Sys2Proof.Proofs.TransmitLog Sys2Proof.Proofs.Encoding

/-! ### The chip's frame (42 R137) -/

/-- The frame the chip holds when it agrees with the registers (R137): the stored frequency's while Enabled, the zero frame
while Disabled. -/
def chipFrame (s : State) : TxEvent :=
  if s.dds.en then ddsFrame (ddsTuningWord s.cfg s.dds.freq) else .ddsFrame 0 0 0 0 0

theorem ddsChipAgrees_iff (s : State) :
    DdsChipAgrees s ↔ ∀ e, (ddsStream s.txlog).getLast? = some e → e = chipFrame s :=
  Iff.rfl

theorem chipFrame_of_enabled {s : State} (h : s.dds.en = true) :
    chipFrame s = ddsFrame (ddsTuningWord s.cfg s.dds.freq) :=
  if_pos h

/-- The zero frame is also the frame DDS.DIS makes, of frequency 0 (40 R93). -/
theorem chipFrame_of_disabled {s : State} (h : s.dds.en = false) : chipFrame s = ddsFrame (ddsTuningWord s.cfg 0#64) := by
  rw [chipFrame, h, ddsTuningWord_zero]
  rfl

/-- Agreement survives a change that sends no frame and leaves the chip's frame what it was. -/
theorem ddsChipAgrees_of_unsent {s t : State} (hs : DdsChipAgrees s) (hstream : ddsStream t.txlog = ddsStream s.txlog)
    (hframe : chipFrame t = chipFrame s) : DdsChipAgrees t := by
  rw [ddsChipAgrees_iff] at hs ⊢
  rwa [hstream, hframe]

/-- Sending the chip's frame brings agreement, whatever was sent before. -/
theorem ddsChipAgrees_of_sent {t : State} {log : List TxEvent} {w : Word32} (hlog : t.txlog = log ++ [ddsFrame w])
    (hframe : chipFrame t = ddsFrame w) : DdsChipAgrees t := by
  rw [ddsChipAgrees_iff]
  intro e he
  have hstream : ddsStream t.txlog = ddsStream log ++ [ddsFrame w] := by
    rw [hlog, ddsStream_append]
    rfl
  rw [hstream, List.getLast?_concat] at he
  rw [hframe, Option.some.inj he]

/-- DDS.SETF, DDS.UP and DDS.DOWN send the new frequency's frame while Enabled; while Disabled the chip's frame is the zero
frame, whatever the frequency. -/
theorem ddsChipAgrees_ddsStoreFreq (f : Hz) {s : State} (hs : DdsChipAgrees s) : DdsChipAgrees (ddsStoreFreq f s).2 := by
  have hlog := ddsStoreFreq_txlog f s
  have hen' : (ddsStoreFreq f s).2.dds.en = s.dds.en := Flags.ddsStoreFreq_en f s
  have hcfg : (ddsStoreFreq f s).2.cfg = s.cfg := by rw [ddsStoreFreq_eq, tx_cfg]
  cases hen : s.dds.en with
  | true =>
    rw [if_pos hen] at hlog
    exact ddsChipAgrees_of_sent hlog (by rw [chipFrame_of_enabled (hen'.trans hen), hcfg])
  | false =>
    rw [hen, if_neg Bool.false_ne_true, List.append_nil] at hlog
    refine ddsChipAgrees_of_unsent hs (congrArg ddsStream hlog) ?_
    rw [chipFrame_of_disabled (hen'.trans hen), chipFrame_of_disabled hen, hcfg]

/-- A PLL rule writes no DDS register and sends no frame (10 R33). -/
theorem ddsChipAgrees_ruleOf_pll {i : Instr} {s : State} (hs : DdsChipAgrees s) (hi : i.unit = .pll)
    (hu : usable i.unit s = true) : DdsChipAgrees (ruleOf i s).2 := by
  obtain ⟨hdds, hstream⟩ := exec_pll_leaves_dds hi (exec_of_usable hu)
  rw [respond_dds] at hdds
  exact ddsChipAgrees_of_unsent hs hstream (by rw [chipFrame, chipFrame, hdds, (ruleOf_frame i s).cfg])

/-- A usable unit's rule keeps the agreement: a rule that changes the chip's frame sends the new one. -/
theorem ddsChipAgrees_ruleOf {i : Instr} {s : State} (hs : DdsChipAgrees s) (hu : usable i.unit s = true) :
    DdsChipAgrees (ruleOf i s).2 := by
  cases i with
  | ddsStatus | ddsSetstep => exact hs
  | ddsSetf arg =>
    simp only [ruleOf]
    split
    · exact ddsChipAgrees_ddsStoreFreq arg hs
    · exact hs
  | ddsUp | ddsDown => exact ddsChipAgrees_ddsStoreFreq _ hs
  | ddsEn => exact ddsChipAgrees_of_sent rfl (chipFrame_of_enabled rfl)
  | ddsDis => exact ddsChipAgrees_of_sent rfl (chipFrame_of_disabled rfl)
  | pllStatus | pllSetf | pllUp | pllDown | pllSetstep | pllEn | pllDis | pllSetpwr | pllToggle =>
    exact ddsChipAgrees_ruleOf_pll hs rfl hu

/-- Settles O53: after reset the log is empty; a wait and an answer send nothing, and every rule keeps the agreement. -/
theorem everyStepKeepsTheDdsChipInAgreement : Obligations.EveryStepKeepsTheDdsChipInAgreement := by
  refine ⟨fun _ => rfl, fun s t hs h => ?_⟩
  rcases (step_effects h).2 with ⟨-, rfl⟩ | ⟨w, rest, -, ⟨u, cls, rfl⟩ | ⟨i, hu, -, rfl⟩⟩
  · exact hs
  · exact hs
  · exact ddsChipAgrees_ruleOf (s := { s with host := rest }) hs hu

/-! ### The commands that store a frequency (42 R131 to R133) -/

/-- A command whose rule stores `f`: it sends the frame of `f` if the unit is Enabled, and answers with `f`. -/
theorem exec_of_ddsStoreFreq {i : Instr} {f : Hz} {s : State} (hu : s.ddsUsable = true) (hi : i.unit = .dds)
    (hrule : ruleOf i s = ddsStoreFreq f s) :
    exec i s = .next { s with
      dds := { s.dds with freq := f }
      txlog := s.txlog ++ (if s.dds.en then [ddsFrame (ddsTuningWord s.cfg f)] else [])
      rsplog := s.rsplog ++ [⟨.accepted, rspWord .dds .ok s.dds.en 0#2 f s.dds.step⟩] } := by
  rw [exec_of_ddsUsable hu hi, hrule, ddsStoreFreq_eq]
  rfl

theorem ruleOf_ddsSetf_of_le {f : Hz} (s : State) (h : f.toNat ≤ Config.ddsFmax) :
    ruleOf (.ddsSetf f) s = ddsStoreFreq f s :=
  if_pos (decide_eq_true h)

theorem ruleOf_ddsSetf_of_gt {f : Hz} (s : State) (h : Config.ddsFmax < f.toNat) :
    ruleOf (.ddsSetf f) s = (.outOfRange, s) :=
  if_neg (by simp [ddsFreqInRange, h])

/-- Settles O17: the rule's test splits at `DDS_FMAX`; above it the rule leaves the state as it was. -/
theorem ddsSetfStoresOrIgnores : Obligations.DdsSetfStoresOrIgnores := by
  refine ⟨fun w h => decode_of_matches (i := .ddsSetf 0#64) h, fun f s hu h => ?_, fun f s hu h => ?_⟩
  · exact exec_of_ddsStoreFreq hu rfl (ruleOf_ddsSetf_of_le s h)
  · rw [exec_of_ddsUsable hu rfl, ruleOf_ddsSetf_of_gt s h]
    rfl

/-- The clamped sum fits 64 bits, so it is stored as it is (D19). -/
theorem toNat_ddsClampHigh_stepUp (freq step : Hz) :
    ((ddsClampHigh (stepUp freq step)).toNat : Int) = min ((freq.toNat : Int) + step.toNat) 40000000 := by
  unfold ddsClampHigh stepUp Config.ddsFmax
  rw [toNat_ofInt_of_bounds] <;> omega

/-- The clamped difference fits 64 bits, so it is stored as it is (D19). -/
theorem toNat_ddsClampLow_stepDown (freq step : Hz) :
    ((ddsClampLow (stepDown freq step)).toNat : Int) = max ((freq.toNat : Int) - step.toNat) 0 := by
  have := freq.isLt
  unfold ddsClampLow stepDown
  rw [toNat_ofInt_of_bounds] <;> omega

/-- Settles O18: the stored frequency is the clamped sum. -/
theorem ddsUpSaturatesAtTheMaximum : Obligations.DdsUpSaturatesAtTheMaximum :=
  ⟨fun _ h => decode_of_matches (i := .ddsUp) h, fun _ hu =>
    ⟨_, toNat_ddsClampHigh_stepUp _ _, exec_of_ddsStoreFreq hu rfl rfl⟩⟩

/-- Settles O19: the stored frequency is the clamped difference. -/
theorem ddsDownSaturatesAtZero : Obligations.DdsDownSaturatesAtZero :=
  ⟨fun _ h => decode_of_matches (i := .ddsDown) h, fun _ hu =>
    ⟨_, toNat_ddsClampLow_stepDown _ _, exec_of_ddsStoreFreq hu rfl rfl⟩⟩

/-! ### The step and the flag (42 R134 to R136) -/

/-- Settles O20: the rule has no test and sends nothing; the answer is the snapshot with the new step. -/
theorem ddsSetstepStoresAnyStep : Obligations.DdsSetstepStoresAnyStep :=
  ⟨fun _ h => decode_of_matches (i := .ddsSetstep 0#64) h, fun _ _ hu => exec_of_ddsUsable hu rfl⟩

/-- A command whose rule writes the flag and sends the frame of `f`. -/
theorem exec_of_setDdsEn {i : Instr} {b : Bool} {f : Hz} {s : State} (hu : s.ddsUsable = true) (hi : i.unit = .dds)
    (hrule : ruleOf i s = (.accepted, ddsTransmit f (setDdsEn b s))) :
    exec i s = .next { s with
      dds := { s.dds with en := b }
      txlog := s.txlog ++ [ddsFrame (ddsTuningWord s.cfg f)]
      rsplog := s.rsplog ++ [⟨.accepted, rspWord .dds .ok b 0#2 s.dds.freq s.dds.step⟩] } := by
  rw [exec_of_ddsUsable hu hi, hrule]
  rfl

/-- Settles O21: the flag is set and the frame is that of the stored frequency. -/
theorem ddsEnEnablesAndTransmits : Obligations.DdsEnEnablesAndTransmits :=
  ⟨fun _ h => decode_of_matches (i := .ddsEn) h, fun _ hu => exec_of_setDdsEn hu rfl rfl⟩

/-- Settles O22: the flag is cleared and the frame is that of frequency 0, the zero frame. -/
theorem ddsDisMutesAndKeepsTheFrequency : Obligations.DdsDisMutesAndKeepsTheFrequency := by
  refine ⟨fun _ h => decode_of_matches (i := .ddsDis) h, fun s hu => ?_⟩
  rw [exec_of_setDdsEn (i := .ddsDis) hu rfl rfl, ddsTuningWord_zero]
  rfl

end Sys2Proof.Proofs.DdsCommands
end

section
/-! The PLL commands (spec 43): what each stores, sends and answers (R151 to R158), and that the last transmission agrees with
the registers (R159). -/

namespace Sys2Proof.Proofs.PllCommands

open Sys2Proof.Machine Sys2Proof.Proofs.StateInvariants Sys2Proof.Proofs.Noninterference Sys2Proof.Proofs.Encoding

/-! ### The chip's registers (43 R159) -/

/-- Agreement survives a change that sends no PLL event and leaves the transmission of the registers what it was. -/
theorem pllChipAgrees_of_unsent {s t : State} (hs : PllChipAgrees s) (hstream : pllStream t.txlog = pllStream s.txlog)
    (hcurrent : currentPllTransmission t = currentPllTransmission s) : PllChipAgrees t := by
  unfold PllChipAgrees at hs ⊢
  rwa [hstream, hcurrent]

/-- An update brings agreement, whatever was sent before: it transmits the registers and writes none (R150). -/
theorem pllChipAgrees_pllUpdate (s : State) : PllChipAgrees (pllUpdate s) := by
  intro _
  have hstream : pllStream (pllUpdate s).txlog = pllStream s.txlog ++ currentPllTransmission s := by
    rw [pllUpdate_txlog, pllStream_append, currentPllTransmission, pllStream_pllTransmit]
  exact ⟨pllStream s.txlog, hstream.symm⟩

theorem pllChipAgrees_pllStoreFreq (n : Int) {s : State} (hs : PllChipAgrees s) : PllChipAgrees (pllStoreFreq n s).2 := by
  rcases pllStoreFreq_cases n s with ⟨-, h⟩ | ⟨-, h⟩ <;> rw [h]
  · exact pllChipAgrees_pllUpdate _
  · exact hs

/-- A DDS rule writes no PLL register and sends no PLL event (10 R33). -/
theorem pllChipAgrees_ruleOf_dds {i : Instr} {s : State} (hs : PllChipAgrees s) (hi : i.unit = .dds)
    (hu : usable i.unit s = true) : PllChipAgrees (ruleOf i s).2 := by
  obtain ⟨hpll, hstream⟩ := exec_dds_leaves_pll hi (exec_of_usable hu)
  rw [respond_pll] at hpll
  refine pllChipAgrees_of_unsent hs hstream ?_
  rw [currentPllTransmission, currentPllTransmission, hpll, (ruleOf_frame i s).cfg]

/-- A usable unit's rule keeps the agreement: a rule that writes a register the words are made from updates the chip, and the
step size is no such register. -/
theorem pllChipAgrees_ruleOf {i : Instr} {s : State} (hs : PllChipAgrees s) (hu : usable i.unit s = true) :
    PllChipAgrees (ruleOf i s).2 := by
  cases i with
  | pllStatus => exact hs
  | pllSetf | pllUp | pllDown => exact pllChipAgrees_pllStoreFreq _ hs
  | pllSetstep arg =>
    simp only [ruleOf]
    split <;> exact hs
  | pllSetpwr arg =>
    simp only [ruleOf]
    split
    · exact pllChipAgrees_pllUpdate _
    · exact hs
  | pllEn | pllDis | pllToggle => exact pllChipAgrees_pllUpdate _
  | ddsStatus | ddsSetf | ddsUp | ddsDown | ddsSetstep | ddsEn | ddsDis => exact pllChipAgrees_ruleOf_dds hs rfl hu

/-- Settles O54: after reset the log is empty; a wait and an answer send nothing, and every rule keeps the agreement. -/
theorem everyStepKeepsThePllChipInAgreement : Obligations.EveryStepKeepsThePllChipInAgreement := by
  refine ⟨fun _ => rfl, fun s t hs h => ?_⟩
  rcases (step_effects h).2 with ⟨-, rfl⟩ | ⟨w, rest, -, ⟨u, cls, rfl⟩ | ⟨i, hu, -, rfl⟩⟩
  · exact hs
  · exact hs
  · exact pllChipAgrees_ruleOf (s := { s with host := rest }) hs hu

/-! ### The two ways a PLL command ends (43 R150; 60 R201) -/

/-- A command whose rule sets the registers to `p` and updates: it transmits the register set of `p` and answers with `p`. -/
theorem exec_of_pllUpdate {i : Instr} {p : PllRegs} {s : State} (hu : s.pllUsable = true) (hi : i.unit = .pll)
    (hrule : ruleOf i s = (.accepted, pllUpdate { s with pll := p })) :
    exec i s = .next { s with
      pll := p
      txlog := s.txlog ++ pllTransmit (pllEncode s.cfg p.freq p.rfOn p.power)
      rsplog := s.rsplog ++ [⟨.accepted, rspWord .pll .ok p.rfOn p.power p.freq p.step⟩] } := by
  rw [exec_of_pllUsable hu hi, hrule]
  rfl

/-- A command whose rule ignores it answers OK with the registers as they were. -/
theorem exec_of_pllIgnored {i : Instr} {s : State} (hu : s.pllUsable = true) (hi : i.unit = .pll)
    (hrule : ruleOf i s = (.outOfRange, s)) :
    exec i s = .next { s with
      rsplog := s.rsplog ++ [⟨.outOfRange, rspWord .pll .ok s.pll.rfOn s.pll.power s.pll.freq s.pll.step⟩] } := by
  rw [exec_of_pllUsable hu hi, hrule]
  rfl

/-! ### The commands that store a frequency (43 R151 to R153) -/

/-- The test's bounds as numbers (00 R7). -/
theorem pllFreqInRange_eq (n : Int) : pllFreqInRange n = decide (35000000 ≤ n ∧ n ≤ 4400000000) := rfl

/-- A command whose rule stores an integer inside the bounds: it fits 64 bits, so what is stored is that integer. -/
theorem exists_exec_of_pllFreqInRange {i : Instr} {n : Int} {s : State} (hu : s.pllUsable = true) (hi : i.unit = .pll)
    (hrule : ruleOf i s = pllStoreFreq n s) (hlo : 35000000 ≤ n) (hhi : n ≤ 4400000000) :
    ∃ g : Hz, (g.toNat : Int) = n ∧
      exec i s = .next { s with
        pll := { s.pll with freq := g }
        txlog := s.txlog ++ pllTransmit (pllEncode s.cfg g s.pll.rfOn s.pll.power)
        rsplog := s.rsplog ++ [⟨.accepted, rspWord .pll .ok s.pll.rfOn s.pll.power g s.pll.step⟩] } := by
  have hin : pllFreqInRange n = true := decide_eq_true ⟨hlo, hhi⟩
  have hn : ((BitVec.ofInt 64 n).toNat : Int) = n := by
    rw [toNat_ofInt_of_bounds] <;> omega
  exact ⟨_, hn, exec_of_pllUpdate hu hi (hrule.trans (pllStoreFreq_inRange s hin))⟩

/-- A command whose rule would store an integer outside the bounds is ignored. -/
theorem exec_of_pllFreq_outOfRange {i : Instr} {n : Int} {s : State} (hu : s.pllUsable = true) (hi : i.unit = .pll)
    (hrule : ruleOf i s = pllStoreFreq n s) (h : n < 35000000 ∨ 4400000000 < n) :
    exec i s = .next { s with
      rsplog := s.rsplog ++ [⟨.outOfRange, rspWord .pll .ok s.pll.rfOn s.pll.power s.pll.freq s.pll.step⟩] } := by
  have hout : pllFreqInRange n = false := by
    rw [pllFreqInRange_eq]
    exact decide_eq_false (by omega)
  exact exec_of_pllIgnored hu hi (hrule.trans (pllStoreFreq_outOfRange s hout))

/-- Settles O24: the integer the rule tests and stores is the value of the operand. -/
theorem pllSetfStoresOrIgnores : Obligations.PllSetfStoresOrIgnores := by
  refine ⟨fun w h => decode_of_matches (i := .pllSetf 0#64) h, fun f s hu hlo hhi => ?_, fun f s hu h => ?_⟩
  · obtain ⟨g, hg, hexec⟩ :=
      exists_exec_of_pllFreqInRange (i := .pllSetf f) hu rfl rfl (by exact_mod_cast hlo) (by exact_mod_cast hhi)
    obtain rfl : g = f := BitVec.eq_of_toNat_eq (by exact_mod_cast hg)
    exact hexec
  · exact exec_of_pllFreq_outOfRange hu rfl rfl (by exact_mod_cast h)

/-- Settles O25: the integer the rule tests and stores is the sum. -/
theorem pllUpStepsOrIgnores : Obligations.PllUpStepsOrIgnores :=
  ⟨fun _ h => decode_of_matches (i := .pllUp) h,
    fun _ hu hlo hhi => exists_exec_of_pllFreqInRange hu rfl rfl hlo hhi,
    fun _ hu h => exec_of_pllFreq_outOfRange hu rfl rfl h⟩

/-- Settles O26: the integer the rule tests and stores is the difference, which a negative one fails. -/
theorem pllDownStepsOrIgnores : Obligations.PllDownStepsOrIgnores :=
  ⟨fun _ h => decode_of_matches (i := .pllDown) h,
    fun _ hu hlo hhi => exists_exec_of_pllFreqInRange hu rfl rfl hlo hhi,
    fun _ hu h => exec_of_pllFreq_outOfRange hu rfl rfl h⟩

/-! ### The step and the power index (43 R154, R155) -/

theorem ruleOf_pllSetstep_of_mem {d : Hz} (s : State) (h : d.toNat ∈ Config.pllSteps) :
    ruleOf (.pllSetstep d) s = (.accepted, { s with pll := { s.pll with step := d } }) :=
  if_pos (decide_eq_true h)

theorem ruleOf_pllSetstep_of_not_mem {d : Hz} (s : State) (h : d.toNat ∉ Config.pllSteps) :
    ruleOf (.pllSetstep d) s = (.outOfRange, s) :=
  if_neg (by simp [pllStepInSet, h])

/-- Settles O27: the rule's test is membership in the seven steps, and neither branch updates. -/
theorem pllSetstepStoresOrIgnores : Obligations.PllSetstepStoresOrIgnores := by
  refine ⟨fun w h => decode_of_matches (i := .pllSetstep 0#64) h, fun d s hu h => ?_, fun d s hu h => ?_⟩
  · rw [exec_of_pllUsable hu rfl, ruleOf_pllSetstep_of_mem s h]
    rfl
  · exact exec_of_pllIgnored hu rfl (ruleOf_pllSetstep_of_not_mem s h)

theorem ruleOf_pllSetpwr_of_le {p : Hz} (s : State) (h : p.toNat ≤ Config.pllPmax) :
    ruleOf (.pllSetpwr p) s = (.accepted, pllUpdate { s with pll := { s.pll with power := p.extractLsb' 0 2 } }) := by
  rw [← BitVec.setWidth_eq_extractLsb' (by decide)]
  exact if_pos (decide_eq_true h)

theorem ruleOf_pllSetpwr_of_gt {p : Hz} (s : State) (h : Config.pllPmax < p.toNat) :
    ruleOf (.pllSetpwr p) s = (.outOfRange, s) :=
  if_neg (by simp [pllPowerInRange, h])

/-- Settles O30: the rule's test splits the 64-bit operand at `PLL_PMAX`. -/
theorem pllSetpwrStoresOrIgnores : Obligations.PllSetpwrStoresOrIgnores :=
  ⟨fun _ h => decode_of_matches (i := .pllSetpwr 0#64) h,
    fun _ s hu h => exec_of_pllUpdate hu rfl (ruleOf_pllSetpwr_of_le s h),
    fun _ s hu h => exec_of_pllIgnored hu rfl (ruleOf_pllSetpwr_of_gt s h)⟩

/-! ### The RF-on flag (43 R156 to R158) -/

/-- The RF-enable bit of word 4 is the one place the flag goes. -/
theorem pllWord4_rfOn_eq (c : Cfg) (d : Nat) (p : BitVec 2) :
    pllWord4 c d true p = pllWord4 c d false p ||| BitVec.twoPow 32 c.pllRfenBit := by
  have hon : (BitVec.ofBool true).setWidth 32 <<< c.pllRfenBit = BitVec.twoPow 32 c.pllRfenBit := rfl
  have hoff : (BitVec.ofBool false).setWidth 32 <<< c.pllRfenBit = 0#32 := BitVec.zero_shiftLeft _
  rw [pllWord4, pllWord4, hon, hoff, BitVec.or_zero]
  ac_rfl

/-- No other part of word 4 sets the RF-enable bit (00 R8). -/
theorem pllEncode_rfOff_bit_clear {c : Cfg} (hc : c.WellFormed) (f : Hz) (p : BitVec 2) :
    (pllEncode c f false p).w4.getLsbD c.pllRfenBit = false := by
  have hfields := PllWordFields.wordFourFields c f false p c.pllRfenBit hc
  obtain ⟨-, ⟨-, -, -, ⟨-, hrfen⟩, -⟩, ⟨-, hdisj, -⟩, -⟩ := hc
  rw [hfields (by omega), if_neg (by omega), if_pos rfl]

/-- Settles O28: the rule sets the flag, whatever it was, and updates. -/
theorem pllEnSetsRfOnAndUpdates : Obligations.PllEnSetsRfOnAndUpdates :=
  ⟨fun _ h => decode_of_matches (i := .pllEn) h, fun _ hu => exec_of_pllUpdate hu rfl rfl⟩

/-- Settles O29: the rule clears the flag and updates; the flag reaches word 4 alone, in a bit nothing else sets. -/
theorem pllDisClearsRfOnAndUpdates : Obligations.PllDisClearsRfOnAndUpdates := by
  refine ⟨fun w h => decode_of_matches (i := .pllDis) h, fun s hu => exec_of_pllUpdate hu rfl rfl,
    fun c f p hc => ⟨?_, ?_⟩⟩
  · simp only [pllEncode, pllWord4_rfOn_eq]
  · exact pllEncode_rfOff_bit_clear hc f p

/-- Settles O31: the rule inverts the flag and updates. -/
theorem pllToggleInvertsRfOnAndUpdates : Obligations.PllToggleInvertsRfOnAndUpdates :=
  ⟨fun _ h => decode_of_matches (i := .pllToggle) h, fun _ hu => exec_of_pllUpdate hu rfl rfl⟩

end Sys2Proof.Proofs.PllCommands
end

section
/-! The dispatch of a presented word and the two STATUS commands (spec 44): what runs the word's command (R180), what the STATUS
commands report (R181, R182), and that a word that names no sub-action or lacks its parameter only answers (R183, R184). -/

namespace Sys2Proof.Proofs.StatusAndDispatch

open Sys2Proof.Machine Sys2Proof.Proofs.Encoding

/-! ### The three ways a decoded word is run (44 R180) -/

theorem runWord_of_command {w : Cmd} {i : Instr} (s : State) (h : decode w = .ok i) : runWord w s = exec i s := by
  simp only [runWord, h]

theorem runWord_of_unknownOp {w : Cmd} {u : UnitSel} (s : State) (h : decode w = .error (.unknownOp u)) :
    runWord w s = execDefaultNoOp u .unknownOp s := by
  simp only [runWord, h]

theorem runWord_of_missingParam {w : Cmd} {u : UnitSel} (s : State) (h : decode w = .error (.missingParam u)) :
    runWord w s = execDefaultNoOp u .missingParam s := by
  simp only [runWord, h]

/-- Settles O6: the step hands the host's first word to the router, which runs the command it decodes to. -/
theorem stepRunsTheDecodedCommand : Obligations.StepRunsTheDecodedCommand := by
  intro s w rest i hc hhost hi
  rw [step_of_host hc hhost, runWord_of_command _ hi]

/-! ### The STATUS commands (44 R181, R182) -/

theorem exec_ddsStatus_of_usable {s : State} (h : s.ddsUsable = true) :
    exec .ddsStatus s = .next (respond .dds .accepted s) :=
  exec_of_ddsUsable h rfl

theorem exec_pllStatus_of_usable {s : State} (h : s.pllUsable = true) :
    exec .pllStatus s = .next (respond .pll .accepted s) :=
  exec_of_pllUsable h rfl

/-- Settles O16: the words are those of the command's row; its rule leaves the state as it was. -/
theorem ddsStatusReportsOnly : Obligations.DdsStatusReportsOnly :=
  ⟨fun _ h => decode_of_matches (i := .ddsStatus) h, fun _ hu => exec_ddsStatus_of_usable hu⟩

/-- Settles O23: the words are those of the command's row; its rule leaves the state as it was. -/
theorem pllStatusReportsOnly : Obligations.PllStatusReportsOnly :=
  ⟨fun _ h => decode_of_matches (i := .pllStatus) h, fun _ hu => exec_pllStatus_of_usable hu⟩

/-! ### The words that are no command (30 R62, R63, R66) -/

/-- The DDS column of R62 ends at `op` 5. -/
theorem decodeDds_of_op_ge {op : BitVec 4} (argp : Bool) (arg : Hz) (h : 6 ≤ op.toNat) :
    decodeDds op argp arg = .error (.unknownOp .dds) := by
  unfold decodeDds
  split
  case h_10 => rfl
  all_goals omega

/-- The PLL column of R62 ends at `op` 7. -/
theorem decodePll_of_op_ge {op : BitVec 4} (argp : Bool) (arg : Hz) (h : 8 ≤ op.toNat) :
    decodePll op argp arg = .error (.unknownOp .pll) := by
  unfold decodePll
  split
  case h_13 => rfl
  all_goals omega

theorem decodeColumn_of_unknown_op {u : UnitSel} {op : BitVec 4} (argp : Bool) (arg : Hz)
    (h : 8 ≤ op.toNat ∨ u = .dds ∧ 6 ≤ op.toNat) : decodeColumn u op argp arg = .error (.unknownOp u) := by
  cases u with
  | dds => exact decodeDds_of_op_ge argp arg (by omega)
  | pll => exact decodePll_of_op_ge argp arg (h.resolve_right nofun)

/-- The sub-actions that need their parameter, without it. -/
theorem decodeColumn_of_missing_param {u : UnitSel} {op : BitVec 4} (arg : Hz)
    (h : op.toNat = 1 ∨ op.toNat = 2 ∨ op.toNat = 3 ∨ u = .pll ∧ op.toNat = 6) :
    decodeColumn u op false arg = .error (.missingParam u) := by
  rcases h with h | h | h | ⟨rfl, h⟩
  case inr.inr.inr => simp only [decodeColumn, decodePll, h]
  all_goals cases u <;> simp only [decodeColumn, decodeDds, decodePll, h]

/-! ### The default no-op (44 R183, R184) -/

/-- On a usable unit the default no-op, run once the host's word is taken, only answers: neither the strap nor the snapshot
depends on the host's list. -/
theorem execDefaultNoOp_of_usable {u : UnitSel} {s : State} (cls : OutcomeClass) (rest : List Cmd) (h : usable u s = true) :
    execDefaultNoOp u cls { s with host := rest } =
      .next { s with host := rest, rsplog := s.rsplog ++ [⟨cls, snapshot u cls.status s⟩] } := by
  cases u with
  | dds => exact runCommand_of_usable (ignored cls) h
  | pll => exact runCommand_of_usable (ignored cls) h

/-- Settles O8: an `op` past the unit's column runs the default no-op, whose answer is that of STATUS but for the class. -/
theorem unknownSubActionIsNoOp : Obligations.UnknownSubActionIsNoOp := by
  intro u s w rest hc hhost hunit hu hop
  have hdec : decode w = .error (.unknownOp u) := by rw [decode_of_unit hunit, decodeColumn_of_unknown_op _ _ hop]
  constructor
  · rw [step_of_host hc hhost, runWord_of_unknownOp _ hdec]
    exact execDefaultNoOp_of_usable .unknownOp rest hu
  · cases u with
    | dds => exact exec_ddsStatus_of_usable hu
    | pll => exact exec_pllStatus_of_usable hu

/-- Settles O9: without its parameter a sub-action that needs one runs the default no-op. -/
theorem missingParameterIsNoOp : Obligations.MissingParameterIsNoOp := by
  intro u s w rest hc hhost hunit hu hargp hop
  have hdec : decode w = .error (.missingParam u) := by
    rw [decode_of_unit hunit, hargp, decodeColumn_of_missing_param _ hop]
  rw [step_of_host hc hhost, runWord_of_missingParam _ hdec]
  exact execDefaultNoOp_of_usable .missingParam rest hu

end Sys2Proof.Proofs.StatusAndDispatch
end

section
/-! The outcome classes and what a failing command leaves alone (spec 60): the unusable unit (R203), the frame of every class
but Accepted (R207), the priority of the classes (R206), and the commands that are out of range (R201). -/

namespace Sys2Proof.Proofs.OutcomeClasses

open Sys2Proof.Machine Sys2Proof.Proofs.StateInvariants Sys2Proof.Proofs.TransmitLog Sys2Proof.Proofs.Encoding
open Sys2Proof.Proofs.Responses Sys2Proof.Proofs.DdsCommands Sys2Proof.Proofs.PllCommands Sys2Proof.Proofs.StatusAndDispatch

/-! ### The class a command frame reports (60 R204) -/

/-- The frame reports its rule's class, and `Unavailable` before it (R206). -/
theorem cls_of_runCommand {u : UnitSel} {rule : State → OutcomeClass × State} {s t : State} {r : Response}
    (hframe : RuleFrame s (rule s).2) (h : runCommand u rule s = .next t) (hr : t.rsplog = s.rsplog ++ [r]) :
    r.cls = if usable u s then (rule s).1 else .unavailable := by
  rcases runCommand_cases h with ⟨hu, rfl⟩ | ⟨hu, rfl⟩
  · rw [cls_of_respond hframe.rsplog hr, if_pos hu]
  · rw [cls_of_respond rfl hr, if_neg (Bool.eq_false_iff.mp hu)]

/-! ### An unusable unit (60 R203) -/

theorem code_injective : Function.Injective UnitSel.code := by
  intro u v
  cases u <;> cases v <;> decide

/-- Every word for an unusable unit, a command or not, only answers. -/
theorem runWord_of_unusable {u : UnitSel} {w : Cmd} {s : State} (hunit : cmdUnit w = u.code) (hu : usable u s = false) :
    runWord w s = .next (respond u .unavailable s) := by
  have hlt : (cmdUnit w).toNat < 2 := by
    rw [hunit]
    cases u <;> decide
  obtain ⟨v, rule, hv, -, hrun⟩ := runWord_of_unit s hlt
  obtain rfl : v = u := code_injective (hv.trans hunit)
  rw [hrun, runCommand_of_unusable rule hu]

/-- Settles O10: the strap is tested before the command's rule and before the default no-op, and no step writes a strap. -/
theorem unusableUnitAnswersErrorOnly : Obligations.UnusableUnitAnswersErrorOnly := by
  refine ⟨fun i s hu => ?_, fun u s w rest hc hhost hunit hu => ?_, fun s t h u => ?_, fun cls => ?_⟩
  · rw [exec_eq_runCommand, runCommand_of_unusable _ hu]
    rfl
  · rw [step_of_host hc hhost]
    cases u with
    | dds => exact runWord_of_unusable hunit hu
    | pll => exact runWord_of_unusable hunit hu
  · obtain ⟨-, hdds, hpll⟩ := cfg_and_straps_step h
    cases u with
    | dds => exact hdds
    | pll => exact hpll
  · cases cls <;> decide

/-! ### A failing command (60 R207) -/

theorem sameButResponses_respond (u : UnitSel) (cls : OutcomeClass) (s : State) : SameButResponses s (respond u cls s) :=
  ⟨rfl, rfl, rfl, rfl, rfl, rfl, rfl⟩

/-- Settles O13: every answer but that of an accepted command is given from the state as it was. -/
theorem failingCommandChangesNothing : Obligations.FailingCommandChangesNothing := by
  intro w s t r h hr hfail
  rcases runWord_cases h with ⟨i, -, h⟩ | ⟨u, cls, -, h⟩
  · rcases runCommand_cases h with ⟨-, rfl⟩ | ⟨-, rfl⟩
    · rw [cls_of_respond (ruleOf_frame i s).rsplog hr] at hfail
      rw [ruleOf_ignored hfail]
      exact sameButResponses_respond _ _ s
    · exact sameButResponses_respond _ _ s
  · rcases runCommand_cases h with ⟨-, rfl⟩ | ⟨-, rfl⟩
    · exact sameButResponses_respond _ _ s
    · exact sameButResponses_respond _ _ s

/-! ### The priority of the classes (60 R206) -/

/-- Only an `op` past the unit's column is an unknown sub-action (44 R183). -/
theorem op_of_decodeColumn_unknownOp {u : UnitSel} {op : BitVec 4} {argp : Bool} {arg : Hz}
    (h : decodeColumn u op argp arg = .error (.unknownOp u)) : 8 ≤ op.toNat ∨ u = .dds ∧ 6 ≤ op.toNat := by
  by_contra hop
  cases u with
  | dds =>
    have hlt : op.toNat < 6 := not_le.mp fun hge => hop (.inr ⟨rfl, hge⟩)
    interval_cases hn : op.toNat <;> cases argp <;> simp [decodeColumn, decodeDds, hn] at h
  | pll =>
    have hlt : op.toNat < 8 := not_le.mp fun hge => hop (.inl hge)
    interval_cases hn : op.toNat <;> cases argp <;> simp [decodeColumn, decodePll, hn] at h

/-- Only a sub-action that needs its parameter, without it, lacks it (44 R184). -/
theorem op_of_decodeColumn_missingParam {u : UnitSel} {op : BitVec 4} {argp : Bool} {arg : Hz}
    (h : decodeColumn u op argp arg = .error (.missingParam u)) :
    argp = false ∧ (op.toNat = 1 ∨ op.toNat = 2 ∨ op.toNat = 3 ∨ op.toNat = 6) := by
  cases u with
  | dds =>
    change decodeDds op argp arg = _ at h
    unfold decodeDds at h
    split at h
    case h_7 hop | h_8 hop | h_9 hop => exact ⟨rfl, by omega⟩
    all_goals cases h
  | pll =>
    change decodePll op argp arg = _ at h
    unfold decodePll at h
    split at h
    case h_9 hop | h_10 hop | h_11 hop | h_12 hop => exact ⟨rfl, by omega⟩
    all_goals cases h

/-- Settles O14: the strap is tested by the command frame, the `op` and the parameter by the decoder, and a command's rule
accepts or is out of range. -/
theorem outcomeClassPriority : Obligations.OutcomeClassPriority := by
  refine ⟨fun w s hge => runWord_of_no_unit s hge, fun u w s t r hunit h hr => ⟨fun hu => ?_, fun hu hunknown => ?_,
    fun hu hknown hmissing => ?_, fun hu hknown hparam => ?_⟩⟩
  · rw [runWord_of_unusable hunit hu] at h
    cases h
    exact cls_of_respond rfl hr
  · have hdec : decode w = .error (.unknownOp u) := by rw [decode_of_unit hunit, decodeColumn_of_unknown_op _ _ hunknown]
    rw [runWord_of_unknownOp s hdec] at h
    rw [cls_of_runCommand (ruleFrame_refl s) h hr, if_pos hu]
    rfl
  · obtain ⟨hargp, hop⟩ := hmissing
    have hop' : (cmdOp w).toNat = 1 ∨ (cmdOp w).toNat = 2 ∨ (cmdOp w).toNat = 3 ∨ u = .pll ∧ (cmdOp w).toNat = 6 := by
      cases u with
      | dds =>
        have hlt : ¬ 6 ≤ (cmdOp w).toNat := fun hge => hknown (.inr ⟨rfl, hge⟩)
        omega
      | pll => exact hop.imp_right (.imp_right (.imp_right fun hsix => ⟨rfl, hsix⟩))
    have hdec : decode w = .error (.missingParam u) := by
      rw [decode_of_unit hunit, hargp, decodeColumn_of_missing_param _ hop']
    rw [runWord_of_missingParam s hdec] at h
    rw [cls_of_runCommand (ruleFrame_refl s) h hr, if_pos hu]
    rfl
  · rcases decodeColumn_cases u (cmdOp w) (cmdArgp w) (cmdArg w) with ⟨i, rfl, hfits⟩ | hunknown | hmissing
    · have hdec := decode_of_matches (matches_iff_fits.mpr ⟨hunit, hfits⟩)
      rw [runWord_of_command s hdec, exec_eq_runCommand, unit_withOperand] at h
      rw [cls_of_runCommand (ruleOf_frame _ s) h hr, if_pos hu]
      exact ruleOf_cls _ s
    · exact absurd (op_of_decodeColumn_unknownOp hunknown) hknown
    · exact absurd (op_of_decodeColumn_missingParam hmissing) hparam

/-! ### The commands that are out of range (60 R201) -/

/-- PLL.SETF, PLL.UP and PLL.DOWN are out of range when the integer they would store is (43 R151 to R153). -/
theorem pllStoreFreq_outOfRange_iff (n : Int) (s : State) :
    (pllStoreFreq n s).1 = .outOfRange ↔ n < 35000000 ∨ 4400000000 < n := by
  rcases pllStoreFreq_cases n s with ⟨hn, h⟩ | ⟨hn, h⟩ <;> rw [h] <;> rw [pllFreqInRange_eq] at hn
  · have hin := of_decide_eq_true hn
    exact iff_of_false nofun (by omega)
  · have hout := of_decide_eq_false hn
    exact iff_of_true rfl (by omega)

theorem ruleOf_ddsSetf_outOfRange_iff (f : Hz) (s : State) :
    (ruleOf (.ddsSetf f) s).1 = .outOfRange ↔ Config.ddsFmax < f.toNat := by
  rcases Nat.lt_or_ge Config.ddsFmax f.toNat with h | h
  · simp [ruleOf_ddsSetf_of_gt s h, h]
  · simp [ruleOf_ddsSetf_of_le s h, ddsStoreFreq_eq, h]

theorem ruleOf_pllSetstep_outOfRange_iff (d : Hz) (s : State) :
    (ruleOf (.pllSetstep d) s).1 = .outOfRange ↔ d.toNat ∉ Config.pllSteps := by
  by_cases h : d.toNat ∈ Config.pllSteps
  · simp [ruleOf_pllSetstep_of_mem s h, h]
  · simp [ruleOf_pllSetstep_of_not_mem s h, h]

theorem ruleOf_pllSetpwr_outOfRange_iff (p : Hz) (s : State) :
    (ruleOf (.pllSetpwr p) s).1 = .outOfRange ↔ Config.pllPmax < p.toNat := by
  rcases Nat.lt_or_ge Config.pllPmax p.toNat with h | h
  · simp [ruleOf_pllSetpwr_of_gt s h, h]
  · simp [ruleOf_pllSetpwr_of_le s h, h]

/-- Settles O15: the class is the rule's, and a rule that is out of range leaves the state as it was. Of the two bounds that
PLL.UP and PLL.DOWN test, the registers' own bounds leave one each. -/
theorem outOfRangeExactlyWhen : Obligations.OutOfRangeExactlyWhen := by
  rintro i s t r ⟨-, ⟨hlo, hhi⟩, -⟩ hu h hr
  rw [exec_of_usable hu] at h
  cases h
  rw [cls_of_respond (ruleOf_frame i s).rsplog hr]
  constructor
  · intro hout
    rw [ruleOf_ignored (by rw [hout]; decide), hout]
    rfl
  · cases i with
    | ddsSetf f => exact ruleOf_ddsSetf_outOfRange_iff f s
    | pllSetf f =>
      refine (pllStoreFreq_outOfRange_iff _ s).trans ?_
      omega
    | pllUp =>
      refine (pllStoreFreq_outOfRange_iff _ s).trans ?_
      unfold stepUp Config.pllFmin at *
      omega
    | pllDown =>
      refine (pllStoreFreq_outOfRange_iff _ s).trans ?_
      unfold stepDown Config.pllFmax at *
      omega
    | pllSetpwr p => exact ruleOf_pllSetpwr_outOfRange_iff p s
    | pllSetstep d => exact ruleOf_pllSetstep_outOfRange_iff d s
    | ddsUp | ddsDown => simp [ruleOf, ddsStoreFreq_eq]
    | ddsStatus | ddsSetstep | ddsEn | ddsDis | pllStatus | pllEn | pllDis | pllToggle => simp [ruleOf]

end Sys2Proof.Proofs.OutcomeClasses
end

section
/-! The state right after reset against the invariants (spec 10 R22, R23, R27, R31; 20 R46; 42 R137; 43 R159): what holds of the
reset state of any configuration, and the configuration the model starts with. -/

namespace Sys2Proof.Proofs.ResetState

open Sys2Proof.Machine Sys2Proof.Proofs.StateInvariants

theorem strapsAsBuilt_ofCfg (c : Cfg) : StrapsAsBuilt (State.ofCfg c) := ⟨ofCfg_ddsUsable c, ofCfg_pllUsable c⟩

/-- While no DDS frame has been sent there is none to disagree with the registers (42 R137). -/
theorem ddsChipAgrees_of_stream_empty {s : State} (h : ddsStream s.txlog = []) : DdsChipAgrees s := by
  intro e he
  rw [h] at he
  cases he

/-- While no PLL event has been sent there is none to disagree with the registers (43 R159). -/
theorem pllChipAgrees_of_stream_empty {s : State} (h : pllStream s.txlog = []) : PllChipAgrees s :=
  fun hsent => absurd h hsent

/-- The empty log is the sequence of no transmissions (20 R46). -/
theorem logOfWholeTransmissions_nil : LogOfWholeTransmissions [] := ⟨[], rfl, List.forall_mem_nil _⟩

theorem scenario_wellFormed : Config.scenario.WellFormed := by decide

/-- Settles O50: the configuration the model starts with is well-formed, which bounds the registers; and nothing has been sent
yet. -/
theorem resetStateIsSafe : Obligations.ResetStateIsSafe :=
  ⟨scenario_wellFormed, regsInBounds_ofCfg scenario_wellFormed, strapsAsBuilt_ofCfg _,
    ddsChipAgrees_of_stream_empty rfl, pllChipAgrees_of_stream_empty rfl, logOfWholeTransmissions_nil⟩

end Sys2Proof.Proofs.ResetState
end
